-- ==== Sys2Proof/Word.lean ====
section
/-! DEFINITION. The words of the engine: bytes, 16-bit words, register numbers and keys
(spec/00_scope.md §4 and rule R5). -/

namespace Sys2Proof

/-- An 8-bit unsigned byte: a memory cell, a register V[i], a timer (R5 `REG_W`, `TIMER_W`). -/
abbrev Byte := BitVec 8

/-- A 16-bit unsigned word: I, pc, a stack entry, an instruction word (R5 `I_W`, `PC_W`, `INSN_W`). -/
abbrev Word := BitVec 16

/-- The number of a general register V0..VF (R8). -/
abbrev Reg := Fin 16

/-- The number of a key 0x0..0xF (R17). -/
abbrev Key := Fin 16

/-- VF, the general register that is also the flag output (R9). -/
abbrev vf : Reg := 15

end Sys2Proof
end

