-- ==== Sys2Proof/Syntax.lean ====
section
/-! DEFINITION. The instructions: one constructor per row of spec/opcode_table.json, in the table's order,
with the operands of spec/30_encoding.md rules R40 to R42. -/

namespace Sys2Proof

/-- The 34 instructions (R2). `x` and `y` are register numbers, `nnn` a 12-bit address, `kk` a byte, `n` a
row count (R42). The bits rule R50 ignores in 00E0 and 00EE are no operand (log 11); the ignored `y` of 8xy6
and 8xyE is kept, as the assembler syntax `SHR Vx, Vy` of R53 has it (log 12). -/
inductive Instr where
  /-- 00E0: clear the display (R85). -/
  | cls
  /-- 00EE: return from subroutine (R58). -/
  | ret
  /-- 1nnn: jump (R59). -/
  | jp (nnn : BitVec 12)
  /-- 2nnn: call subroutine (R60). -/
  | call (nnn : BitVec 12)
  /-- 3xkk: skip if Vx equals a byte (R62). -/
  | seImm (x : Reg) (kk : Byte)
  /-- 4xkk: skip if Vx differs from a byte (R63). -/
  | sneImm (x : Reg) (kk : Byte)
  /-- 5xy0: skip if Vx equals Vy (R64). -/
  | seReg (x y : Reg)
  /-- 6xkk: load a byte (R67). -/
  | ldImm (x : Reg) (kk : Byte)
  /-- 7xkk: add a byte, no flag (R68). -/
  | addImm (x : Reg) (kk : Byte)
  /-- 8xy0: copy a register (R69). -/
  | ldReg (x y : Reg)
  /-- 8xy1: bitwise OR (R70). -/
  | orReg (x y : Reg)
  /-- 8xy2: bitwise AND (R71). -/
  | andReg (x y : Reg)
  /-- 8xy3: bitwise XOR (R72). -/
  | xorReg (x y : Reg)
  /-- 8xy4: add with carry out (R73). -/
  | addReg (x y : Reg)
  /-- 8xy5: subtract Vy from Vx (R74). -/
  | sub (x y : Reg)
  /-- 8xy6: shift right by one; y is ignored (R75). -/
  | shr (x y : Reg)
  /-- 8xy7: subtract Vx from Vy into Vx (R76). -/
  | subn (x y : Reg)
  /-- 8xyE: shift left by one; y is ignored (R77). -/
  | shl (x y : Reg)
  /-- 9xy0: skip if Vx differs from Vy (R65). -/
  | sneReg (x y : Reg)
  /-- Annn: load the index register (R79). -/
  | ldI (nnn : BitVec 12)
  /-- Bnnn: jump with offset V0 (R61). -/
  | jpV0 (nnn : BitVec 12)
  /-- Cxkk: random byte masked by a byte (R78). -/
  | rnd (x : Reg) (kk : Byte)
  /-- Dxyn: draw an n-row sprite (R86). -/
  | drw (x y : Reg) (n : Nat)
  /-- Ex9E: skip if the key named by Vx is pressed (R87). -/
  | skp (x : Reg)
  /-- ExA1: skip if the key named by Vx is not pressed (R88). -/
  | sknp (x : Reg)
  /-- Fx07: read the delay timer (R89). -/
  | ldVxDt (x : Reg)
  /-- Fx0A: wait for a key press by polling (R90). -/
  | ldVxK (x : Reg)
  /-- Fx15: set the delay timer (R91). -/
  | ldDtVx (x : Reg)
  /-- Fx18: set the sound timer (R92). -/
  | ldStVx (x : Reg)
  /-- Fx1E: add a register to the index (R80). -/
  | addIVx (x : Reg)
  /-- Fx29: point I at a hex-digit glyph (R81). -/
  | ldFVx (x : Reg)
  /-- Fx33: store the three decimal digits of Vx (R82). -/
  | ldBVx (x : Reg)
  /-- Fx55: store V0..Vx (R83). -/
  | ldIVx (x : Reg)
  /-- Fx65: load V0..Vx (R84). -/
  | ldVxI (x : Reg)
  deriving DecidableEq, Repr

end Sys2Proof
end

