-- ==== Sys2Proof/Decode.lean ====
section
/-! DEFINITION. From a word to an instruction or a refusal by name, and back: the fields, formats and the
two-level dispatch of spec/30_encoding.md rules R39 to R52, and the match and mask rows of
spec/opcode_table.json. -/

namespace Sys2Proof

/-! ### The fields of a word (R40) -/

/-- `g`, op[15:12]: the group. -/
def fieldG (op : Word) : BitVec 4 := op.extractLsb' 12 4

/-- `nnn`, op[11:0]: a 12-bit address. -/
def fieldNnn (op : Word) : BitVec 12 := op.extractLsb' 0 12

/-- A 4-bit field read as a register number (R42). -/
def regOfBits (b : BitVec 4) : Reg := ⟨b.toNat, b.isLt⟩

/-- `x`, op[11:8]: a register number. -/
def fieldX (op : Word) : Reg := regOfBits (op.extractLsb' 8 4)

/-- `y`, op[7:4]: a register number. -/
def fieldY (op : Word) : Reg := regOfBits (op.extractLsb' 4 4)

/-- `kk`, op[7:0]: a byte immediate; the same bits are the selector `sel8` of groups E and F. -/
def fieldKk (op : Word) : Byte := op.extractLsb' 0 8

/-- `n`, op[3:0]: a nibble immediate; the same bits are the selector of groups 0, 5, 8 and 9. -/
def fieldN (op : Word) : BitVec 4 := op.extractLsb' 0 4

/-! ### Decode (R43 to R49) -/

/-- Why bytes do not decode. -/
inductive DecodeError where
  /-- No rule from R44 to R48 selects the word: the raw word is carried (R49). -/
  | unknownOpcode (op : Word)
  /-- Fewer than two bytes are given; every instruction is two bytes long (R52). -/
  | tooShort (given : Nat)
  deriving DecidableEq, Repr

/-- Group 0 is selected by the low nibble alone; op[11:4] is ignored (R44). -/
def decodeGroup0 (op : Word) : Except DecodeError Instr :=
  match fieldN op with
  | 0x0#4 => .ok .cls
  | 0xE#4 => .ok .ret
  | _ => .error (.unknownOpcode op)

/-- Group 5 needs a low nibble of 0 (R45). -/
def decodeGroup5 (op : Word) : Except DecodeError Instr :=
  match fieldN op with
  | 0x0#4 => .ok (.seReg (fieldX op) (fieldY op))
  | _ => .error (.unknownOpcode op)

/-- Group 8 is selected by the low nibble (R46). -/
def decodeGroup8 (op : Word) : Except DecodeError Instr :=
  match fieldN op with
  | 0x0#4 => .ok (.ldReg (fieldX op) (fieldY op))
  | 0x1#4 => .ok (.orReg (fieldX op) (fieldY op))
  | 0x2#4 => .ok (.andReg (fieldX op) (fieldY op))
  | 0x3#4 => .ok (.xorReg (fieldX op) (fieldY op))
  | 0x4#4 => .ok (.addReg (fieldX op) (fieldY op))
  | 0x5#4 => .ok (.sub (fieldX op) (fieldY op))
  | 0x6#4 => .ok (.shr (fieldX op) (fieldY op))
  | 0x7#4 => .ok (.subn (fieldX op) (fieldY op))
  | 0xE#4 => .ok (.shl (fieldX op) (fieldY op))
  | _ => .error (.unknownOpcode op)

/-- Group 9 needs a low nibble of 0 (R45). -/
def decodeGroup9 (op : Word) : Except DecodeError Instr :=
  match fieldN op with
  | 0x0#4 => .ok (.sneReg (fieldX op) (fieldY op))
  | _ => .error (.unknownOpcode op)

/-- Group E is selected by the low byte (R47). -/
def decodeGroupE (op : Word) : Except DecodeError Instr :=
  match fieldKk op with
  | 0x9E#8 => .ok (.skp (fieldX op))
  | 0xA1#8 => .ok (.sknp (fieldX op))
  | _ => .error (.unknownOpcode op)

/-- Group F is selected by the low byte (R48). -/
def decodeGroupF (op : Word) : Except DecodeError Instr :=
  match fieldKk op with
  | 0x07#8 => .ok (.ldVxDt (fieldX op))
  | 0x0A#8 => .ok (.ldVxK (fieldX op))
  | 0x15#8 => .ok (.ldDtVx (fieldX op))
  | 0x18#8 => .ok (.ldStVx (fieldX op))
  | 0x1E#8 => .ok (.addIVx (fieldX op))
  | 0x29#8 => .ok (.ldFVx (fieldX op))
  | 0x33#8 => .ok (.ldBVx (fieldX op))
  | 0x55#8 => .ok (.ldIVx (fieldX op))
  | 0x65#8 => .ok (.ldVxI (fieldX op))
  | _ => .error (.unknownOpcode op)

/-- The decode of R49: the top nibble, then the group's selector. Total on every word; the last arm is
group 0xF, the one nibble value left. -/
def decode (op : Word) : Except DecodeError Instr :=
  match fieldG op with
  | 0x0#4 => decodeGroup0 op
  | 0x1#4 => .ok (.jp (fieldNnn op))
  | 0x2#4 => .ok (.call (fieldNnn op))
  | 0x3#4 => .ok (.seImm (fieldX op) (fieldKk op))
  | 0x4#4 => .ok (.sneImm (fieldX op) (fieldKk op))
  | 0x5#4 => decodeGroup5 op
  | 0x6#4 => .ok (.ldImm (fieldX op) (fieldKk op))
  | 0x7#4 => .ok (.addImm (fieldX op) (fieldKk op))
  | 0x8#4 => decodeGroup8 op
  | 0x9#4 => decodeGroup9 op
  | 0xA#4 => .ok (.ldI (fieldNnn op))
  | 0xB#4 => .ok (.jpV0 (fieldNnn op))
  | 0xC#4 => .ok (.rnd (fieldX op) (fieldKk op))
  | 0xD#4 => .ok (.drw (fieldX op) (fieldY op) (fieldN op).toNat)
  | 0xE#4 => decodeGroupE op
  | _ => decodeGroupF op

/-- Two bytes as an instruction word, high byte first (R31, R39). -/
def wordOfBytes (hi lo : Byte) : Word := hi ++ lo

/-- Decoding from bytes: the first two, high byte first, with the rest given back. Total on any bytes. -/
def decodeBytes : List Byte → Except DecodeError (Instr × List Byte)
  | hi :: lo :: rest =>
    match decode (wordOfBytes hi lo) with
    | .ok i => .ok (i, rest)
    | .error e => .error e
  | bs => .error (.tooShort bs.length)

/-- What the decoder reads from an opcode-table word: the word's bytes as memory holds them, high byte first,
given to `decodeBytes`. -/
def decodeTableWord (nbits w : Nat) : Option Instr :=
  let op : Word := BitVec.ofNat 16 (w % 2 ^ nbits)
  match decodeBytes [op.extractLsb' 8 8, op.extractLsb' 0 8] with
  | .ok (i, _) => some i
  | .error _ => none

/-! ### Encode, from the formats of R41 -/

/-- A register number as a 4-bit field. -/
def regBits (r : Reg) : BitVec 4 := BitVec.ofNat 4 r.val

/-- Format `NNN`: `gggg nnnn nnnn nnnn`. -/
def packNnn (g : BitVec 4) (nnn : BitVec 12) : Word := g ++ nnn

/-- Formats `XKK` and `XS`: `gggg xxxx kkkk kkkk`. -/
def packXkk (g : BitVec 4) (x : Reg) (kk : Byte) : Word := g ++ regBits x ++ kk

/-- Formats `XYS` and `XYN`: `gggg xxxx yyyy nnnn`. -/
def packXyn (g : BitVec 4) (x y : Reg) (n : BitVec 4) : Word := g ++ regBits x ++ regBits y ++ n

/-- The word of an instruction. The ignored bits of CLS and RET are written as the assembler of R53 writes
them, 0x00E0 and 0x00EE. -/
def encode : Instr → Word
  | .cls => 0x00E0#16
  | .ret => 0x00EE#16
  | .jp nnn => packNnn 0x1#4 nnn
  | .call nnn => packNnn 0x2#4 nnn
  | .seImm x kk => packXkk 0x3#4 x kk
  | .sneImm x kk => packXkk 0x4#4 x kk
  | .seReg x y => packXyn 0x5#4 x y 0x0#4
  | .ldImm x kk => packXkk 0x6#4 x kk
  | .addImm x kk => packXkk 0x7#4 x kk
  | .ldReg x y => packXyn 0x8#4 x y 0x0#4
  | .orReg x y => packXyn 0x8#4 x y 0x1#4
  | .andReg x y => packXyn 0x8#4 x y 0x2#4
  | .xorReg x y => packXyn 0x8#4 x y 0x3#4
  | .addReg x y => packXyn 0x8#4 x y 0x4#4
  | .sub x y => packXyn 0x8#4 x y 0x5#4
  | .shr x y => packXyn 0x8#4 x y 0x6#4
  | .subn x y => packXyn 0x8#4 x y 0x7#4
  | .shl x y => packXyn 0x8#4 x y 0xE#4
  | .sneReg x y => packXyn 0x9#4 x y 0x0#4
  | .ldI nnn => packNnn 0xA#4 nnn
  | .jpV0 nnn => packNnn 0xB#4 nnn
  | .rnd x kk => packXkk 0xC#4 x kk
  | .drw x y n => packXyn 0xD#4 x y (BitVec.ofNat 4 n)
  | .skp x => packXkk 0xE#4 x 0x9E#8
  | .sknp x => packXkk 0xE#4 x 0xA1#8
  | .ldVxDt x => packXkk 0xF#4 x 0x07#8
  | .ldVxK x => packXkk 0xF#4 x 0x0A#8
  | .ldDtVx x => packXkk 0xF#4 x 0x15#8
  | .ldStVx x => packXkk 0xF#4 x 0x18#8
  | .addIVx x => packXkk 0xF#4 x 0x1E#8
  | .ldFVx x => packXkk 0xF#4 x 0x29#8
  | .ldBVx x => packXkk 0xF#4 x 0x33#8
  | .ldIVx x => packXkk 0xF#4 x 0x55#8
  | .ldVxI x => packXkk 0xF#4 x 0x65#8

/-- The two bytes of an instruction as memory holds them, high byte first (R31). -/
def encodeBytes (i : Instr) : List Byte :=
  [(encode i).extractLsb' 8 8, (encode i).extractLsb' 0 8]

/-! ### The rows of opcode_table.json -/

/-- One row: a word is the row's when the bits of `mask` are those of `value`. -/
structure OpcodeRow where
  /-- The row's `mask`. -/
  mask : Word
  /-- The row's `match`. -/
  value : Word
  deriving DecidableEq, Repr

/-- A word is a row's. -/
def OpcodeRow.admits (r : OpcodeRow) (op : Word) : Bool := op &&& r.mask == r.value

/-- The table's row of an instruction. -/
def opcodeRow : Instr → OpcodeRow
  | .cls => ⟨0xF00F, 0x0000⟩
  | .ret => ⟨0xF00F, 0x000E⟩
  | .jp _ => ⟨0xF000, 0x1000⟩
  | .call _ => ⟨0xF000, 0x2000⟩
  | .seImm _ _ => ⟨0xF000, 0x3000⟩
  | .sneImm _ _ => ⟨0xF000, 0x4000⟩
  | .seReg _ _ => ⟨0xF00F, 0x5000⟩
  | .ldImm _ _ => ⟨0xF000, 0x6000⟩
  | .addImm _ _ => ⟨0xF000, 0x7000⟩
  | .ldReg _ _ => ⟨0xF00F, 0x8000⟩
  | .orReg _ _ => ⟨0xF00F, 0x8001⟩
  | .andReg _ _ => ⟨0xF00F, 0x8002⟩
  | .xorReg _ _ => ⟨0xF00F, 0x8003⟩
  | .addReg _ _ => ⟨0xF00F, 0x8004⟩
  | .sub _ _ => ⟨0xF00F, 0x8005⟩
  | .shr _ _ => ⟨0xF00F, 0x8006⟩
  | .subn _ _ => ⟨0xF00F, 0x8007⟩
  | .shl _ _ => ⟨0xF00F, 0x800E⟩
  | .sneReg _ _ => ⟨0xF00F, 0x9000⟩
  | .ldI _ => ⟨0xF000, 0xA000⟩
  | .jpV0 _ => ⟨0xF000, 0xB000⟩
  | .rnd _ _ => ⟨0xF000, 0xC000⟩
  | .drw _ _ _ => ⟨0xF000, 0xD000⟩
  | .skp _ => ⟨0xF0FF, 0xE09E⟩
  | .sknp _ => ⟨0xF0FF, 0xE0A1⟩
  | .ldVxDt _ => ⟨0xF0FF, 0xF007⟩
  | .ldVxK _ => ⟨0xF0FF, 0xF00A⟩
  | .ldDtVx _ => ⟨0xF0FF, 0xF015⟩
  | .ldStVx _ => ⟨0xF0FF, 0xF018⟩
  | .addIVx _ => ⟨0xF0FF, 0xF01E⟩
  | .ldFVx _ => ⟨0xF0FF, 0xF029⟩
  | .ldBVx _ => ⟨0xF0FF, 0xF033⟩
  | .ldIVx _ => ⟨0xF0FF, 0xF055⟩
  | .ldVxI _ => ⟨0xF0FF, 0xF065⟩

/-- One instruction of each row of groups 0 to 7. -/
def samples0To7 : List Instr :=
  [.cls, .ret, .jp 0, .call 0, .seImm 0 0, .sneImm 0 0, .seReg 0 0, .ldImm 0 0, .addImm 0 0]

/-- One instruction of each row of group 8. -/
def samples8 : List Instr :=
  [.ldReg 0 0, .orReg 0 0, .andReg 0 0, .xorReg 0 0, .addReg 0 0, .sub 0 0, .shr 0 0, .subn 0 0, .shl 0 0]

/-- One instruction of each row of groups 9 to E. -/
def samples9ToE : List Instr :=
  [.sneReg 0 0, .ldI 0, .jpV0 0, .rnd 0 0, .drw 0 0 0, .skp 0, .sknp 0]

/-- One instruction of each row of group F. -/
def samplesF : List Instr :=
  [.ldVxDt 0, .ldVxK 0, .ldDtVx 0, .ldStVx 0, .addIVx 0, .ldFVx 0, .ldBVx 0, .ldIVx 0, .ldVxI 0]

/-- The 34 rows of the table (R2). -/
def opcodeTable : List OpcodeRow := (samples0To7 ++ samples8 ++ samples9ToE ++ samplesF).map opcodeRow

end Sys2Proof
end

