-- ==== Sys2Proof/Config.lean ====
section
/-! DEFINITION. The parameters the spec leaves as inputs of the model (spec/00_scope.md rule R6), as plain
data, and the two free draws of a step (rule R7), as constants without a body. -/

namespace Sys2Proof

/-- `P_FLAG_ORDER`: the order of the VF write in 8xy4 to 8xyE (R6, R66). -/
inductive FlagOrder where
  /-- The source's statements in the order written: VF first, then V[x], which sees the new VF. -/
  | sequential
  /-- Result and flag from the registers on entry: V[x] first, then VF. -/
  | flagLast
  deriving DecidableEq, Repr

/-- `P_TIMER_MODE`: who ticks the timers (R6, R102, R103). -/
inductive TimerMode where
  /-- Every completed step ends with a tick. -/
  | perStep
  /-- Only the host ticks, between steps. -/
  | hostTick
  deriving DecidableEq, Repr

/-- `P_FONTSET`: the 80 bytes of the glyph table (R5 `FONT_SIZE`, R26). -/
abbrev Fontset := Vector Byte 80

/-- The parameters of rule R6, fixed for one machine. They are carried by `State` and no step changes them,
so a statement over all states holds for every value of them (log 2). -/
structure Config where
  /-- `P_FLAG_ORDER`. -/
  flagOrder : FlagOrder
  /-- `P_TIMER_MODE`. -/
  timerMode : TimerMode
  /-- `P_FX0A_CLEARS_KEY`. -/
  fx0aClearsKey : Bool
  /-- `P_FONTSET`. -/
  fontset : Fontset
  deriving DecidableEq, Repr

/-- `RandomDraw` (R7, R78): the byte the n-th execution of Cxkk draws. A FREE VALUE: nothing constrains it
(log 4). -/
opaque Config.randomDraw : Nat → Byte

/-- `KeySelectDraw` (R7, R90): the n-th choice among several pressed keys, as a number that is reduced to a
position in the list of pressed keys. A FREE VALUE: nothing constrains it (log 5). -/
opaque Config.keySelectDraw : Nat → Nat

end Sys2Proof
end

