-- ==== Sys2Proof/Machine/Defaults.lean ====
section
/-! DEFINITION. The defaults of the parameters of spec/00_scope.md rule R6, which State.reset takes. Each is
the spec's own choice (spec/92_eei_decisions.md D9, D14, D16, D19; logs 2 and 3). -/

namespace Sys2Proof.Machine

/-- Glyphs 0 to 3 of the default font (R26). -/
def glyphs0To3 : List Byte :=
  [0xF0, 0x90, 0x90, 0x90, 0xF0,  0x20, 0x60, 0x20, 0x20, 0x70,
   0xF0, 0x10, 0xF0, 0x80, 0xF0,  0xF0, 0x10, 0xF0, 0x10, 0xF0]

/-- Glyphs 4 to 7 of the default font (R26). -/
def glyphs4To7 : List Byte :=
  [0x90, 0x90, 0xF0, 0x10, 0x10,  0xF0, 0x80, 0xF0, 0x10, 0xF0,
   0xF0, 0x80, 0xF0, 0x90, 0xF0,  0xF0, 0x10, 0x20, 0x40, 0x40]

/-- Glyphs 8 to B of the default font (R26). -/
def glyphs8ToB : List Byte :=
  [0xF0, 0x90, 0xF0, 0x90, 0xF0,  0xF0, 0x90, 0xF0, 0x10, 0xF0,
   0xF0, 0x90, 0xF0, 0x90, 0x90,  0xE0, 0x90, 0xE0, 0x90, 0xE0]

/-- Glyphs C to F of the default font (R26). -/
def glyphsCToF : List Byte :=
  [0xF0, 0x80, 0x80, 0x80, 0xF0,  0xE0, 0x90, 0x90, 0x90, 0xE0,
   0xF0, 0x80, 0xF0, 0x80, 0xF0,  0xF0, 0x80, 0xF0, 0x80, 0x80]

/-- The default of `P_FONTSET`, the conventional CHIP-8 font of R26. PRESUMED: the spec takes it from general
knowledge (log 3). -/
def defaultFontset : Fontset :=
  ⟨(glyphs0To3 ++ glyphs4To7 ++ glyphs8ToB ++ glyphsCToF).toArray, rfl⟩

/-- The defaults of R6. DESIGN CHOICE of the spec (log 2). -/
def defaultConfig : Config where
  flagOrder := .sequential
  timerMode := .perStep
  fx0aClearsKey := false
  fontset := defaultFontset

end Sys2Proof.Machine
end

