-- ==== Sys2Proof/Machine/State.lean ====
section
/-! DEFINITION. The state of the engine as plain data (spec/10_state.md rules R8 to R22), the faults of
spec/60_exceptions.md rules R93 and R96, and the state after reset (spec/70_reset_and_hazards.md rule R113). -/

namespace Sys2Proof.Machine

/-- The seven faults with the info each records (R93, R96). `faultPc` is the address the faulting instruction
was fetched from. A fault is raised by a step as a NEXT state whose `status` records it (log 1); the outcome
`fault` is the answer of `step` on an engine that is already FAULTED, with the recorded fault (R98). Stopping
is the spec's own decision D1, SAFE: a run of the original that goes on is not modelled. -/
inductive Fault where
  /-- Code 1. Raised by decode: the word matches no row of the opcode table (R49). Safe. -/
  | unknownOpcode (op : Word) (faultPc : Word)
  /-- Code 2. Raised by the fetch: pc > 4094 (R39). Safe. -/
  | fetchOutOfRange (faultPc : Word)
  /-- Code 3. Raised by Dxyn, Fx33, Fx55, Fx65: the effective address is above 4095 (R29, R30). Safe. -/
  | memOutOfRange (addr : Nat) (faultPc : Word)
  /-- Code 4. Raised by Fx33, Fx55: a write at or below 0x04F (R30). Safe. -/
  | fontWrite (addr : Nat) (faultPc : Word)
  /-- Code 5. Raised by 2nnn with sp = 16 (R60). Safe. -/
  | stackOverflow (faultPc : Word)
  /-- Code 6. Raised by 00EE with sp = 0 (R58). Safe. -/
  | stackUnderflow (faultPc : Word)
  /-- Code 7. Raised by Ex9E, ExA1 with V[x] > 0x0F (R87, R88). Safe. -/
  | keyIndexOutOfRange (value : Byte) (faultPc : Word)
  deriving DecidableEq, Repr

/-- Why a step could be refused. No arm of `exec` refuses, so no step of this model does. -/
inductive Refusal where
  /-- Raised by an arm of `exec` whose instruction has no meaning yet: none is left. Safe. -/
  | notModelled (mnemonic : String)
  deriving DecidableEq, Repr

/-- The run status (R20). -/
inductive Status where
  /-- Reset is done and no step has run yet. -/
  | ready
  /-- At least one step has completed without a fault. -/
  | running
  /-- A step raised a fault. -/
  | faulted (f : Fault)
  deriving DecidableEq, Repr

/-- The 64 by 32 grid of one-bit pixels, row-major: 32 rows of 64 columns (R18). -/
abbrev Framebuffer := Vector (Vector Bool 64) 32

/-- The memory of R23: the cells that differ from what reset left, addresses strictly rising (log 17). -/
abbrev Memory := List Host.Cell

/-- Everything the spec gives the engine, and the model's own `cfg`, `randomDraws` and `keyDraws`. -/
structure State where
  /-- V[0..15] (R8, R9). -/
  v : Vector Byte 16
  /-- The index register I (R10). -/
  i : Word
  /-- The program counter (R11, R12). -/
  pc : Word
  /-- The call stack (R13). -/
  stack : Vector Word 16
  /-- The stack pointer, 0..16: the number of entries in use (R14). -/
  sp : Fin 17
  /-- The delay timer DT (R15). -/
  dt : Byte
  /-- The sound timer ST (R16). -/
  st : Byte
  /-- The keypad: true is pressed (R17). -/
  keys : Vector Bool 16
  /-- The framebuffer: true is lit (R18). -/
  fb : Framebuffer
  /-- The frame-dirty bit (R19). -/
  frameDirty : Bool
  /-- The run status (R20). -/
  status : Status
  /-- The memory (R23 to R26). -/
  mem : Memory
  /-- The model's own: the parameters of R6 (log 2). -/
  cfg : Config
  /-- The model's own: how many RandomDraw bytes have been consumed (R7, log 4). -/
  randomDraws : Nat
  /-- The model's own: how many KeySelectDraw choices have been consumed (R7, log 5). -/
  keyDraws : Nat
  deriving DecidableEq, Repr

/-- What a step answers. -/
abbrev Result := Host.Outcome State Fault Refusal

/-- The state the reset sequence of R113 leaves, for parameters `cfg`. Memory lists nothing: an unlisted
address reads as reset leaves it (R25). The draw counters start at 0, DESIGN CHOICE (log 6). -/
def State.resetWith (cfg : Config) : State where
  v := Vector.replicate 16 0x00#8
  i := 0x0000#16
  pc := 0x0200#16
  stack := Vector.replicate 16 0x0000#16
  sp := 0
  dt := 0x00#8
  st := 0x00#8
  keys := Vector.replicate 16 false
  fb := Vector.replicate 32 (Vector.replicate 64 false)
  frameDirty := false
  status := .ready
  mem := []
  cfg := cfg
  randomDraws := 0
  keyDraws := 0

/-- The engine right after reset, with the spec's defaults of the parameters (log 2, log 3). -/
def State.reset : State := State.resetWith defaultConfig

end Sys2Proof.Machine
end

