-- ==== Sys2Proof/Machine/Ops.lean ====
section
/-! DEFINITION. The named operations over registers, memory, stack, framebuffer, timers and keypad; taking a
fault; the fetch and the end of a step. The instructions' meanings are written over these. -/

namespace Sys2Proof.Machine

/-! ### General registers (R8) -/

/-- `V[x]`. -/
def State.getV (s : State) (x : Reg) : Byte := s.v[x.val]

/-- `V[x] <- b`. -/
def State.setV (s : State) (x : Reg) (b : Byte) : State := { s with v := s.v.set x.val b }

/-- `V[k], V[k+1], … <- bs`, in ascending order (R84). -/
def writeRegs (v : Vector Byte 16) (k : Nat) : List Byte → Vector Byte 16
  | [] => v
  | b :: bs => writeRegs (v.setIfInBounds k b) (k + 1) bs

/-! ### Memory (R23 to R30) -/

/-- What an address that is not listed reads as: the contents reset leaves, the font at 0x000..0x04F and 0x00
elsewhere (R25). -/
def Memory.unlisted (font : Fontset) (a : Nat) : Byte :=
  if h : a < 80 then font[a] else 0x00#8

/-- The byte at an address. -/
def Memory.read (font : Fontset) : Memory → Nat → Byte
  | [], a => Memory.unlisted font a
  | (b, w) :: m, a => if a = b then w else Memory.read font m a

/-- The memory with an address no longer listed. -/
def Memory.erase (m : Memory) (a : Nat) : Memory := m.filter (fun c => c.1 != a)

/-- The memory with a cell listed before the first higher address. -/
def Memory.insert : Memory → Nat → Byte → Memory
  | [], a, b => [(a, b)]
  | c :: m, a, b => if a < c.1 then (a, b) :: c :: m else c :: Memory.insert m a b

/-- The memory with a byte written: the value an unlisted address reads as removes the entry, so equal
memories are equal lists. -/
def Memory.write (font : Fontset) (m : Memory) (a : Nat) (b : Byte) : Memory :=
  if b = Memory.unlisted font a then Memory.erase m a else Memory.insert (Memory.erase m a) a b

/-- Bytes written at ascending addresses. -/
def Memory.writeList (font : Fontset) : Memory → Nat → List Byte → Memory
  | m, _, [] => m
  | m, a, b :: bs => Memory.writeList font (Memory.write font m a b) (a + 1) bs

/-- The canonical form: addresses strictly rising and below 4096, no entry equal to what an unlisted address
reads as. -/
abbrev Memory.wf (font : Fontset) (m : Memory) : Prop :=
  m.Pairwise (fun c d => c.1 < d.1) ∧ ∀ c ∈ m, c.1 < 4096 ∧ c.2 ≠ Memory.unlisted font c.1

/-- `mem[a]`, unchecked. -/
def State.readByte (s : State) (a : Nat) : Byte := Memory.read s.cfg.fontset s.mem a

/-- `mem[a] <- b`, unchecked. -/
def State.pokeByte (s : State) (a : Nat) (b : Byte) : State :=
  { s with mem := Memory.write s.cfg.fontset s.mem a b }

/-! ### Faults (R93 to R99) -/

/-- `fault_pc` (R96). -/
def Fault.faultPc : Fault → Word
  | .unknownOpcode _ a => a
  | .fetchOutOfRange a => a
  | .memOutOfRange _ a => a
  | .fontWrite _ a => a
  | .stackOverflow a => a
  | .stackUnderflow a => a
  | .keyIndexOutOfRange _ a => a

/-- The code of a fault (R93). -/
def Fault.code : Fault → Nat
  | .unknownOpcode _ _ => 1
  | .fetchOutOfRange _ => 2
  | .memOutOfRange _ _ => 3
  | .fontWrite _ _ => 4
  | .stackOverflow _ => 5
  | .stackUnderflow _ => 6
  | .keyIndexOutOfRange _ _ => 7

/-- The code the status shows: 0 while it is not FAULTED (R93). -/
def Status.code : Status → Nat
  | .ready => 0
  | .running => 0
  | .faulted f => f.code

/-- The status is FAULTED. -/
def Status.isFaulted : Status → Bool
  | .ready => false
  | .running => false
  | .faulted _ => true

/-- The address of the executing instruction as its handler sees it: pc has been advanced by 2 (R55, R96). -/
def State.insnAddr (s : State) : Word := s.pc - 2

/-- `raise f`: TAKING A FAULT. Given a state in which the step has written nothing but pc, pc is the faulting
instruction's address again and `status` records the fault; nothing else changes, no handler runs and no mode
exists to change (R94, R95, R98). The engine takes no step from there (R56), and there is no return (R99). -/
def takeFault (f : Fault) (s : State) : Result :=
  .next { s with pc := f.faultPc, status := .faulted f }

/-- The end of a handler that may have raised: its state, or the fault taken in the state `s` the handler was
entered with, so that none of its writes commit (R95). -/
def orFault (r : Except Fault State) (s : State) : Result :=
  match r with
  | .ok t => .next t
  | .error f => takeFault f s

/-! ### Checked accesses (R27 to R30, R33) -/

/-- `MemRead(a, 1)` (R29). -/
def memRead (s : State) (a : Nat) : Except Fault Byte :=
  if 4095 < a then .error (.memOutOfRange a s.insnAddr) else .ok (s.readByte a)

/-- `MemWrite(a, 1, b)` (R30): the range check comes before the font check. -/
def memWrite (s : State) (a : Nat) (b : Byte) : Except Fault State :=
  if 4095 < a then .error (.memOutOfRange a s.insnAddr)
  else if a ≤ 0x04F then .error (.fontWrite a s.insnAddr)
  else .ok (s.pokeByte a b)

/-- `n` bytes read at ascending addresses from `a`; the first that fails is the fault (R97). -/
def loadBytes (s : State) (a : Nat) : Nat → Except Fault (List Byte)
  | 0 => .ok []
  | n + 1 =>
    match memRead s a with
    | .error f => .error f
    | .ok b =>
      match loadBytes s (a + 1) n with
      | .error f => .error f
      | .ok bs => .ok (b :: bs)

/-- Bytes written at ascending addresses from `a`; the first that fails is the fault (R97). -/
def storeBytes (s : State) (a : Nat) : List Byte → Except Fault State
  | [] => .ok s
  | b :: bs =>
    match memWrite s a b with
    | .error f => .error f
    | .ok t => storeBytes t (a + 1) bs

/-! ### Program counter (R11, R55) -/

/-- The advance by 2 after the fetch, and a taken skip (R55; 40_control_flow.md §2). -/
def State.advancePc (s : State) : State := { s with pc := s.pc + 2 }

/-- Fx0A's rewind to itself (R90). -/
def State.rewindPc (s : State) : State := { s with pc := s.pc - 2 }

/-- Skip the next instruction if a condition holds (40_control_flow.md §2). -/
def State.skipIf (s : State) (c : Bool) : State := if c then s.advancePc else s

/-! ### Call stack (R13, R14) -/

/-- Push a return address: `stack[sp] <- a`, then `sp <- sp + 1` (R60). -/
def pushReturn (s : State) (a : Word) : Except Fault State :=
  if h : s.sp.val < 16 then
    .ok { s with stack := s.stack.set s.sp.val a, sp := ⟨s.sp.val + 1, by omega⟩ }
  else .error (.stackOverflow s.insnAddr)

/-- Pop a return address into pc: `sp <- sp - 1`, then `pc <- stack[sp]`; the entry stays (R13, R58). -/
def popReturn (s : State) : Except Fault State :=
  if h : 0 < s.sp.val then
    .ok { s with pc := s.stack[s.sp.val - 1], sp := ⟨s.sp.val - 1, by omega⟩ }
  else .error (.stackUnderflow s.insnAddr)

/-! ### Timers (R102) -/

/-- One timer, one tick: down by 1 if it is non-zero. -/
def tickDown (t : Byte) : Byte := if t = 0 then 0 else t - 1

/-- `TimerTick()`. -/
def State.timerTick (s : State) : State := { s with dt := tickDown s.dt, st := tickDown s.st }

/-! ### Keypad (R17, R90) -/

/-- `key[k] = 1`. -/
def State.keyDown (s : State) (k : Key) : Bool := s.keys[k.val]

/-- `key[k] <- b`. -/
def State.setKey (s : State) (k : Key) (b : Bool) : State := { s with keys := s.keys.set k.val b }

/-- The pressed keys, ascending: the set P of R90. -/
def State.pressedKeys (s : State) : List Key := (List.finRange 16).filter s.keyDown

/-- `KeySelectDraw(P)` for P = `k :: ks`: the key itself when it is the only one; any member, by a free draw,
when there are more (R7, R90; log 5). -/
def drawKey (k : Key) (ks : List Key) (s : State) : Key × State :=
  match ks with
  | [] => (k, s)
  | _ :: _ =>
    ((k :: ks).getD (Config.keySelectDraw s.keyDraws % (ks.length + 1)) k,
     { s with keyDraws := s.keyDraws + 1 })

/-! ### Framebuffer (R18, R86) -/

/-- The clear framebuffer (R85). -/
def Framebuffer.clear : Framebuffer := Vector.replicate 32 (Vector.replicate 64 false)

/-- `fb[row][col]`. -/
def Framebuffer.pixel (fb : Framebuffer) (row : Fin 32) (col : Fin 64) : Bool :=
  (fb[row.val])[col.val]

/-- `fb[row][col] <- fb[row][col] XOR 1`. -/
def Framebuffer.flip (fb : Framebuffer) (row : Fin 32) (col : Fin 64) : Framebuffer :=
  fb.set row.val ((fb[row.val]).set col.val (!fb.pixel row col))

/-- The framebuffer while a sprite is drawn, and whether a lit pixel was turned off so far (R86 `collide`). -/
structure Canvas where
  /-- The framebuffer. -/
  fb : Framebuffer
  /-- `collide`. -/
  collide : Bool
  deriving DecidableEq, Repr

/-- The sprite bit of column `c` of a row byte; c = 0 is the most significant bit (R86). -/
def spriteBit (b : Byte) (c : Nat) : Bool := (b &&& (0x80#8 >>> c)) != 0

/-- One set sprite bit XORed onto the pixel at the wrapped place (R86). -/
def Canvas.plot (d : Canvas) (row col : Nat) : Canvas where
  fb := d.fb.flip (Fin.ofNat 32 row) (Fin.ofNat 64 col)
  collide := d.collide || d.fb.pixel (Fin.ofNat 32 row) (Fin.ofNat 64 col)

/-- The columns `c` to 7 of one sprite row (R86, inner loop), with `fuel` the number of columns left. -/
def Canvas.drawRow (b : Byte) (row cx : Nat) (c : Nat) : Nat → Canvas → Canvas
  | 0, d => d
  | fuel + 1, d =>
    Canvas.drawRow b row cx (c + 1) fuel (if spriteBit b c then d.plot row (cx + c) else d)

/-- The rows of a sprite from `row` down (R86, outer loop). -/
def Canvas.drawRows (cx : Nat) : Nat → List Byte → Canvas → Canvas
  | _, [], d => d
  | row, b :: bs, d => Canvas.drawRows cx (row + 1) bs (Canvas.drawRow b row cx 0 8 d)

/-! ### The fetch and the end of a step (R39, R54, R57) -/

/-- The fetch: `pc ≤ 4094` is checked before any byte is read, then two bytes, high byte first (R39). -/
def fetch (s : State) : Except Fault Word :=
  if 4094 < s.pc.toNat then .error (.fetchOutOfRange s.pc)
  else .ok (wordOfBytes (s.readByte s.pc.toNat) (s.readByte (s.pc.toNat + 1)))

/-- The end of a completed step: the tick under PER_STEP, then READY becomes RUNNING (R54, R57). A faulted step
does neither (R94, R95). -/
def endStep (t : State) : State :=
  match t.status with
  | .faulted _ => t
  | .ready | .running =>
    match t.cfg.timerMode with
    | .perStep => { t.timerTick with status := .running }
    | .hostTick => { t with status := .running }

/-- `endStep` on the next state of an outcome. -/
def completeStep : Result → Result
  | .next t => .next (endStep t)
  | .fault f => .fault f
  | .refused r => .refused r

/-- The fault a word that does not decode raises: `UNKNOWN_OPCODE` with the raw word (R49, R96). -/
def unknownOpcodeFault (op : Word) (s : State) : Fault := .unknownOpcode op s.insnAddr

/-- An instruction word placed where the fetch reads it, high byte first, whatever the region: what a program
loader does, not what a store instruction does (log 18, log 20). -/
def placeWord (s : State) (op : Word) : State :=
  if 4094 < s.pc.toNat then s
  else (s.pokeByte s.pc.toNat (op.extractLsb' 8 8)).pokeByte (s.pc.toNat + 1) (op.extractLsb' 0 8)

end Sys2Proof.Machine
end

