-- ==== Sys2Proof/Machine/Flags.lean ====
section
/-! DEFINITION. The flag computations and the order of the VF write (spec/41_alu.md R66, R73 to R77). -/

namespace Sys2Proof.Machine

/-- `b2u`: 1 when the condition holds, else 0 (00_scope.md §4). -/
def b2u (c : Bool) : Byte := if c then 1 else 0

/-- The carry of 8xy4: the unsigned sum exceeds 255 (R73). -/
def carryFlag (a b : Byte) : Byte := b2u (decide (255 < a.toNat + b.toNat))

/-- The flag of 8xy5 and 8xy7: strictly greater, unsigned (R74, R76). -/
def greaterFlag (a b : Byte) : Byte := b2u (decide (b.toNat < a.toNat))

/-- The bit 8xy6 shifts out: bit 0 (R75). -/
def lowBit (a : Byte) : Byte := a &&& 0x01#8

/-- The bit 8xyE shifts out: bit 7 (R77). -/
def highBit (a : Byte) : Byte := (a >>> 7) &&& 0x01#8

/-- The two writes of 8xy4 to 8xyE, VF and V[x], in the order `P_FLAG_ORDER` gives (R66). `flag` is computed
from the registers on entry. `result` is computed from the state it is given: after the VF write under
SEQUENTIAL, on entry under FLAG_LAST. -/
def writeWithFlag (x : Reg) (flag : Byte) (result : State → Byte) (s : State) : State :=
  match s.cfg.flagOrder with
  | .sequential => (s.setV vf flag).setV x (result (s.setV vf flag))
  | .flagLast => (s.setV x (result s)).setV vf flag

end Sys2Proof.Machine
end

