-- ==== Sys2Proof/Machine/Alu.lean ====
section
/-! DEFINITION. Register loads, arithmetic, logic, shifts and random (spec/41_alu.md). None of them faults. -/

namespace Sys2Proof.Machine

/-- 6xkk (R67): `V[x] <- kk`. -/
def execLdImm (x : Reg) (kk : Byte) (s : State) : Result := .next (s.setV x kk)

/-- 7xkk (R68): `V[x] <- trunc_8(V[x] + kk)`, no flag. -/
def execAddImm (x : Reg) (kk : Byte) (s : State) : Result := .next (s.setV x (s.getV x + kk))

/-- 8xy0 (R69): `V[x] <- V[y]`. -/
def execLdReg (x y : Reg) (s : State) : Result := .next (s.setV x (s.getV y))

/-- 8xy1 (R70). -/
def execOrReg (x y : Reg) (s : State) : Result := .next (s.setV x (s.getV x ||| s.getV y))

/-- 8xy2 (R71). -/
def execAndReg (x y : Reg) (s : State) : Result := .next (s.setV x (s.getV x &&& s.getV y))

/-- 8xy3 (R72). -/
def execXorReg (x y : Reg) (s : State) : Result := .next (s.setV x (s.getV x ^^^ s.getV y))

/-- 8xy4 (R73): the sum is taken on entry in both orders. -/
def execAddReg (x y : Reg) (s : State) : Result :=
  .next (writeWithFlag x (carryFlag (s.getV x) (s.getV y)) (fun _ => s.getV x + s.getV y) s)

/-- 8xy5 (R74): under SEQUENTIAL the difference reads V after the VF write. -/
def execSub (x y : Reg) (s : State) : Result :=
  .next (writeWithFlag x (greaterFlag (s.getV x) (s.getV y)) (fun t => t.getV x - t.getV y) s)

/-- 8xy6 (R75): y is ignored; under SEQUENTIAL the shift reads V after the VF write. -/
def execShr (x _y : Reg) (s : State) : Result :=
  .next (writeWithFlag x (lowBit (s.getV x)) (fun t => t.getV x >>> 1) s)

/-- 8xy7 (R76): under SEQUENTIAL the difference reads V after the VF write. -/
def execSubn (x y : Reg) (s : State) : Result :=
  .next (writeWithFlag x (greaterFlag (s.getV y) (s.getV x)) (fun t => t.getV y - t.getV x) s)

/-- 8xyE (R77): y is ignored; under SEQUENTIAL the shift reads V after the VF write. -/
def execShl (x _y : Reg) (s : State) : Result :=
  .next (writeWithFlag x (highBit (s.getV x)) (fun t => t.getV x <<< 1) s)

/-- Cxkk (R78): a fresh `RandomDraw` byte, masked. -/
def execRnd (x : Reg) (kk : Byte) (s : State) : Result :=
  .next { s.setV x (Config.randomDraw s.randomDraws &&& kk) with randomDraws := s.randomDraws + 1 }

end Sys2Proof.Machine
end

