-- ==== Sys2Proof/Machine/Operands.lean ====
section
/-! DEFINITION. The operand forms: how immediates are widened, how a register becomes a key index, a glyph
address or decimal digits, and the one addressing mode I + k (spec/30_encoding.md R42, spec/20_memory.md R28). -/

namespace Sys2Proof.Machine

/-- `zext_16(nnn)` (R42). -/
def zextAddr (nnn : BitVec 12) : Word := nnn.setWidth 16

/-- `zext_16(b)` for a byte. -/
def zextByte (b : Byte) : Word := b.setWidth 16

/-- The effective address `I + k`, on unbounded naturals (R28). -/
def State.effAddr (s : State) (k : Nat) : Nat := s.i.toNat + k

/-- The key a register's value names, if it is one of the 16 (R87, R88). -/
def keyOf (b : Byte) : Option Key := if h : b.toNat < 16 then some ⟨b.toNat, h⟩ else none

/-- The address of a glyph, `zext_16(V[x] * 5)`, on the whole byte (R81). -/
def glyphAddr (b : Byte) : Word := BitVec.ofNat 16 (b.toNat * 5)

/-- The hundreds, tens and ones of a byte (R82). -/
def decimalDigits (b : Byte) : List Byte :=
  [BitVec.ofNat 8 (b.toNat / 100), BitVec.ofNat 8 (b.toNat / 10 % 10), BitVec.ofNat 8 (b.toNat % 10)]

/-- The register block V[0]..V[x], inclusive (R83). -/
def State.regBlock (s : State) (x : Reg) : List Byte := s.v.toList.take (x.val + 1)

end Sys2Proof.Machine
end

