-- ==== Sys2Proof/Machine/ControlFlow.lean ====
section
/-! DEFINITION. Return, jumps, call and skips (spec/40_control_flow.md). On entry pc has advanced by 2 (R55). -/

namespace Sys2Proof.Machine

/-- 00EE (R58): STACK_UNDERFLOW with sp = 0. -/
def execRet (s : State) : Result := orFault (popReturn s) s

/-- 1nnn (R59): `pc <- zext_16(nnn)`. -/
def execJp (nnn : BitVec 12) (s : State) : Result := .next { s with pc := zextAddr nnn }

/-- 2nnn (R60): push pc, the address after the CALL, then jump; STACK_OVERFLOW with sp = 16. -/
def execCall (nnn : BitVec 12) (s : State) : Result :=
  match pushReturn s s.pc with
  | .ok t => .next { t with pc := zextAddr nnn }
  | .error f => takeFault f s

/-- Bnnn (R61): `pc <- trunc_16(zext_16(nnn) + zext_16(V[0]))`. -/
def execJpV0 (nnn : BitVec 12) (s : State) : Result :=
  .next { s with pc := zextAddr nnn + zextByte (s.getV 0) }

/-- 3xkk (R62). -/
def execSeImm (x : Reg) (kk : Byte) (s : State) : Result := .next (s.skipIf (s.getV x == kk))

/-- 4xkk (R63). -/
def execSneImm (x : Reg) (kk : Byte) (s : State) : Result := .next (s.skipIf (s.getV x != kk))

/-- 5xy0 (R64). -/
def execSeReg (x y : Reg) (s : State) : Result := .next (s.skipIf (s.getV x == s.getV y))

/-- 9xy0 (R65). -/
def execSneReg (x y : Reg) (s : State) : Result := .next (s.skipIf (s.getV x != s.getV y))

end Sys2Proof.Machine
end

