-- ==== Sys2Proof/Machine/Display.lean ====
section
/-! DEFINITION. Clear and sprite draw (spec/43_display.md). -/

namespace Sys2Proof.Machine

/-- 00E0 (R85): every pixel off, frame_dirty on. -/
def execCls (s : State) : Result := .next { s with fb := Framebuffer.clear, frameDirty := true }

/-- Dxyn (R86): the coordinates are read on entry and every sprite byte before any pixel changes; then the
rows are XORed on, VF gets the collision bit and frame_dirty is set. -/
def execDrw (x y : Reg) (n : Nat) (s : State) : Result :=
  match loadBytes s (s.effAddr 0) n with
  | .error f => takeFault f s
  | .ok rows =>
    let d := Canvas.drawRows (s.getV x).toNat (s.getV y).toNat rows ⟨s.fb, false⟩
    .next { s.setV vf (b2u d.collide) with fb := d.fb, frameDirty := true }

end Sys2Proof.Machine
end

