-- ==== Sys2Proof/Machine/IndexMemory.lean ====
section
/-! DEFINITION. The index register and the memory transfers (spec/42_index_memory.md). -/

namespace Sys2Proof.Machine

/-- Annn (R79): `I <- zext_16(nnn)`. -/
def execLdI (nnn : BitVec 12) (s : State) : Result := .next { s with i := zextAddr nnn }

/-- Fx1E (R80): `I <- trunc_16(I + zext_16(V[x]))`, no flag. -/
def execAddIVx (x : Reg) (s : State) : Result := .next { s with i := s.i + zextByte (s.getV x) }

/-- Fx29 (R81): `I <- zext_16(V[x] * 5)`. -/
def execLdFVx (x : Reg) (s : State) : Result := .next { s with i := glyphAddr (s.getV x) }

/-- Fx33 (R82): the decimal digits of V[x] at I, I+1, I+2. -/
def execLdBVx (x : Reg) (s : State) : Result :=
  orFault (storeBytes s (s.effAddr 0) (decimalDigits (s.getV x))) s

/-- Fx55 (R83): V[0]..V[x] at I..I+x. -/
def execLdIVx (x : Reg) (s : State) : Result :=
  orFault (storeBytes s (s.effAddr 0) (s.regBlock x)) s

/-- Fx65 (R84): V[0]..V[x] from I..I+x; no register is written on a fault. -/
def execLdVxI (x : Reg) (s : State) : Result :=
  match loadBytes s (s.effAddr 0) (x.val + 1) with
  | .ok bs => .next { s with v := writeRegs s.v 0 bs }
  | .error f => takeFault f s

end Sys2Proof.Machine
end

