-- ==== Sys2Proof/Machine/KeypadTimers.lean ====
section
/-! DEFINITION. Key tests, the key wait and timer access (spec/44_keypad_timers.md). The tick that follows in
the same step is `endStep`'s. -/

namespace Sys2Proof.Machine

/-- Ex9E (R87): KEY_INDEX_OUT_OF_RANGE when V[x] > 0x0F. -/
def execSkp (x : Reg) (s : State) : Result :=
  match keyOf (s.getV x) with
  | some k => .next (s.skipIf (s.keyDown k))
  | none => takeFault (.keyIndexOutOfRange (s.getV x) s.insnAddr) s

/-- ExA1 (R88): KEY_INDEX_OUT_OF_RANGE when V[x] > 0x0F. -/
def execSknp (x : Reg) (s : State) : Result :=
  match keyOf (s.getV x) with
  | some k => .next (s.skipIf (!s.keyDown k))
  | none => takeFault (.keyIndexOutOfRange (s.getV x) s.insnAddr) s

/-- Fx07 (R89): `V[x] <- DT`, before this step's tick. -/
def execLdVxDt (x : Reg) (s : State) : Result := .next (s.setV x s.dt)

/-- Fx0A (R90): with no key pressed pc goes back to this instruction; else V[x] gets a pressed key, which is
released under `P_FX0A_CLEARS_KEY`. -/
def execLdVxK (x : Reg) (s : State) : Result :=
  match s.pressedKeys with
  | [] => .next s.rewindPc
  | k :: ks =>
    let drawn := drawKey k ks s
    let t := drawn.2.setV x (BitVec.ofNat 8 drawn.1.val)
    .next (if s.cfg.fx0aClearsKey then t.setKey drawn.1 false else t)

/-- Fx15 (R91): `DT <- V[x]`. -/
def execLdDtVx (x : Reg) (s : State) : Result := .next { s with dt := s.getV x }

/-- Fx18 (R92): `ST <- V[x]`. -/
def execLdStVx (x : Reg) (s : State) : Result := .next { s with st := s.getV x }

end Sys2Proof.Machine
end

