-- ==== Sys2Proof/Machine/Step.lean ====
section
/-! DEFINITION. One step (spec/30_encoding.md rules R54 to R57): fetch, advance pc, decode, execute, end. -/

namespace Sys2Proof.Machine

/-- `step()`. A FAULTED engine takes no step: the call returns the recorded fault (R56, R98). A fault of the
fetch, the decode or the instruction is a next state that records it (R94, R95; log 1). -/
def step (s : State) : Host.Outcome State Fault Refusal :=
  match s.status with
  | .faulted f => .fault f
  | .ready | .running =>
    match fetch s with
    | .error f => takeFault f s
    | .ok op =>
      match decode op with
      | .error _ => takeFault (unknownOpcodeFault op s.advancePc) s.advancePc
      | .ok i => completeStep (exec i s.advancePc)

/-- `s` with an instruction word stored where `step` fetches its next instruction (log 18, log 20). -/
def State.withFetchWord (s : State) (nbits w : Nat) : State :=
  placeWord s (BitVec.ofNat 16 (w % 2 ^ nbits))

end Sys2Proof.Machine
end

