-- ==== Sys2Proof/Machine/HostInterface.lean ====
section
/-! DEFINITION. The host's operations between steps: the table of spec/60_exceptions.md rule R108, with
R103 to R107 and spec/70_reset_and_hazards.md rules R113 and R115. -/

namespace Sys2Proof.Machine

/-- An operation the host may call (R108). -/
inductive HostOp where
  /-- Reset, the source's construction (R113). -/
  | reset
  /-- `load(bytes)` (R115). -/
  | load (bytes : List Byte)
  /-- `step()` (R54). -/
  | step
  /-- `frame_dirty()` (R106). -/
  | frameDirty
  /-- `clear_frame_dirty()` (R106). -/
  | clearFrameDirty
  /-- `framebuffer()` (R105). -/
  | framebuffer
  /-- `set_key(index, pressed)` (R104). -/
  | setKey (index : Nat) (pressed : Bool)
  /-- `delay_timer()` (R107). -/
  | delayTimer
  /-- `sound_timer()` (R107). -/
  | soundTimer
  /-- `tick_timers()` (R103). -/
  | tickTimers
  /-- `status()` (R20, R108). -/
  | status
  deriving DecidableEq, Repr

/-- What an operation returns to the host (R108). -/
inductive HostReply where
  /-- Ok, or nothing to return. -/
  | ok
  /-- The operation is not admitted; no state changes (93_implementation_defined.md, treatment `refuse`). -/
  | notAdmitted
  /-- `RomTooLarge` (R115). -/
  | romTooLarge
  /-- The fault a step raised or had recorded (R94, R98). -/
  | fault (f : Fault)
  /-- A bit. -/
  | bit (b : Bool)
  /-- A byte. -/
  | byte (b : Byte)
  /-- The whole grid. -/
  | grid (fb : Framebuffer)
  /-- The status with its info. -/
  | status (st : Status)
  deriving DecidableEq, Repr

/-- The largest ROM, 4096 − 0x200 bytes (R5 `MAX_ROM`). -/
def maxRom : Nat := 3584

/-- Where programs are loaded (R5 `PROGRAM_BASE`). -/
def programBase : Nat := 0x200

/-- Reset: a fresh state for the same parameters. The draw counters go on, so that no two draws of one run are
tied to each other (R113, R114, R21; log 6). -/
def hostReset (s : State) : State :=
  { State.resetWith s.cfg with randomDraws := s.randomDraws, keyDraws := s.keyDraws }

/-- `load(bytes)`: admitted only in READY; too long a ROM changes nothing (R115). -/
def hostLoad (bytes : List Byte) (s : State) : State × HostReply :=
  match s.status with
  | .ready =>
    if maxRom < bytes.length then (s, .romTooLarge)
    else ({ s with mem := Memory.writeList s.cfg.fontset s.mem programBase bytes }, .ok)
  | .running | .faulted _ => (s, .notAdmitted)

/-- `step()`: the next state, and the fault if the step raised one; on a FAULTED engine the recorded fault and
no change (R94, R98). -/
def hostStep (s : State) : State × HostReply :=
  match step s with
  | .next t =>
    match t.status with
    | .faulted f => (t, .fault f)
    | .ready | .running => (t, .ok)
  | .fault f => (s, .fault f)
  | .refused _ => (s, .notAdmitted)

/-- `set_key(index, pressed)`: an index of 16 or more is refused (R104). -/
def hostSetKey (index : Nat) (pressed : Bool) (s : State) : State × HostReply :=
  if h : index < 16 then (s.setKey ⟨index, h⟩ pressed, .ok) else (s, .notAdmitted)

/-- `tick_timers()`: admitted only under HOST_TICK (R103, R108). -/
def hostTickTimers (s : State) : State × HostReply :=
  match s.cfg.timerMode with
  | .hostTick => (s.timerTick, .ok)
  | .perStep => (s, .notAdmitted)

/-- One host operation: the state it leaves and what it returns (R108). -/
def hostCall (o : HostOp) (s : State) : State × HostReply :=
  match o with
  | .reset => (hostReset s, .ok)
  | .load bytes => hostLoad bytes s
  | .step => hostStep s
  | .frameDirty => (s, .bit s.frameDirty)
  | .clearFrameDirty => ({ s with frameDirty := false }, .ok)
  | .framebuffer => (s, .grid s.fb)
  | .setKey index pressed => hostSetKey index pressed s
  | .delayTimer => (s, .byte s.dt)
  | .soundTimer => (s, .byte s.st)
  | .tickTimers => hostTickTimers s
  | .status => (s, .status s.status)

/-- Any finite sequence of host operations, in order (R109). -/
def hostRun : List HostOp → State → State
  | [], s => s
  | o :: os, s => hostRun os (hostCall o s).1

end Sys2Proof.Machine
end

