-- ==== Sys2Proof/Safety.lean ====
section
/-! DEFINITION. What claims are said in: a state that can step, a parked state, and the invariants the engine
keeps (spec/70_reset_and_hazards.md R125, spec/10_state.md R12, spec/20_memory.md R24). -/

namespace Sys2Proof.Machine

/-- The engine can step: `status` is not FAULTED (R56). -/
abbrev State.live (s : State) : Prop := s.status.isFaulted = false

/-- The bytes at pc are the word `op`, and the fetch is in range (R39). -/
abbrev State.fetches (s : State) (op : Word) : Prop := fetch s = .ok op

/-- The next step runs `i`: the engine can step and the word at pc decodes to `i`. -/
def State.runs (s : State) (i : Instr) : Prop := s.live ∧ ∃ op, s.fetches op ∧ decode op = .ok i

/-- Parked at `a`: pc = a and the word there jumps to itself (R125). -/
def State.parkedAt (s : State) (a : BitVec 12) : Prop :=
  s.pc = zextAddr a ∧ a.toNat ≤ 0x0FFE ∧ s.fetches (packNnn 0x1#4 a)

/-- The memory keeps its canonical form. -/
abbrev State.memWf (s : State) : Prop := Memory.wf s.cfg.fontset s.mem

/-- The font region reads as the fontset: it is immutable (R24). -/
abbrev State.fontIntact (s : State) : Prop := ∀ a : Fin 80, s.readByte a.val = s.cfg.fontset[a.val]

/-- pc and the stack entries stay where R12 says a program can carry them: pc at most 0x10FE, and a pushed
return address at most 0x1000. -/
abbrev State.pcBounded (s : State) : Prop :=
  s.pc.toNat ≤ 0x10FE ∧ ∀ k : Fin 16, (s.stack[k.val]).toNat ≤ 0x1000

/-- Every word whose bits under `mask` are `value` decodes to the instruction `f` reads from its fields. -/
def Encodes (mask value : Word) (f : Word → Instr) : Prop :=
  ∀ op : Word, op &&& mask = value → decode op = .ok (f op)

/-- `i` completes in `s`, its whole effect being that V[x] gets `b`: every other register, every byte of memory
and every other field is as before. -/
def SetsReg (i : Instr) (s : State) (x : Reg) (b : Byte) : Prop :=
  ∃ t, exec i s = .next t ∧ t.getV x = b ∧ (∀ r, r ≠ x → t.getV r = s.getV r) ∧ t = { s with v := t.v }

/-- `i` completes in `s`, its whole effect being that pc gets `a`. -/
def SetsPc (i : Instr) (s : State) (a : Word) : Prop := exec i s = .next { s with pc := a }

/-- `i` raises `f` in `s`, whose pc has been advanced past `i`: the next state has pc back at `i` and the fault
in `status`, and everything else is as in `s` (R94, R95). -/
def Raises (i : Instr) (s : State) (f : Fault) : Prop :=
  exec i s = .next { s with pc := s.pc - 2, status := .faulted f }

/-- The address the executing instruction was fetched from, pc having been advanced past it (R55, R96). -/
abbrev State.executingAt (s : State) : Word := s.pc - 2

/-- The sprite bit `c` of row `r` of the sprite at I, counted from
the left, is set: c = 0 is the most significant bit (R86). -/
def State.spriteSet (s : State) (r c : Nat) : Prop := (s.readByte (s.effAddr r)).getLsbD (7 - c) = true

/-- A set bit of the n-row sprite at I falls on pixel (row, col) when drawn at (V[x], V[y]) with wrapping
(R86). -/
def State.spriteCovers (s : State) (x y : Reg) (n : Nat) (row : Fin 32) (col : Fin 64) : Prop :=
  ∃ r c, r < n ∧ c < 8 ∧ s.spriteSet r c ∧
    ((s.getV y).toNat + r) % 32 = row.val ∧ ((s.getV x).toNat + c) % 64 = col.val

end Sys2Proof.Machine
end

