-- ==== Sys2Proof/Certificates/Slice0/Obligations.lean ====
section
/-! DEFINITION. The statements for the provers. A state `s` in which `exec` runs an instruction is the one the
handler sees, with pc already advanced past the instruction (spec/30_encoding.md R55); a state `s` that `step`
takes is the one before the fetch. An equation `t = { s with … }` is the frame: every field it does not name is
as in `s`, so every register, flag, timer, key, pixel and byte of memory it does not name is unchanged. -/

section

open Sys2Proof Sys2Proof.Machine

/-! ### Encoding (30_encoding.md) -/

/-- Sanity: words written out from the patterns of opcode_table.json, one or more for each family. -/
def Obligations.Decode_of_written_words : Prop :=
  decode 0x0FF0#16 = .ok .cls ∧ decode 0x00EE#16 = .ok .ret ∧ decode 0x2301#16 = .ok (.call 0x301) ∧
  decode 0x4A42#16 = .ok (.sneImm 10 0x42) ∧ decode 0x8125#16 = .ok (.sub 1 2) ∧
  decode 0xC30F#16 = .ok (.rnd 3 0x0F) ∧ decode 0xF265#16 = .ok (.ldVxI 2) ∧
  decode 0xD35A#16 = .ok (.drw 3 5 10) ∧ decode 0xE5A1#16 = .ok (.sknp 5) ∧
  decode 0x5121#16 = .error (.unknownOpcode 0x5121)

/-- R44 to R48: the second-level selectors of groups 0, 5, 8, 9, E and F, with the words they leave unknown. -/
def Obligations.Decode_group_selectors : Prop :=
  ∀ op : Word,
    (fieldG op = 0x0 → decode op =
      if fieldN op = 0x0 then .ok .cls else if fieldN op = 0xE then .ok .ret
      else .error (.unknownOpcode op)) ∧
    (fieldG op = 0x5 → decode op =
      if fieldN op = 0x0 then .ok (.seReg (fieldX op) (fieldY op)) else .error (.unknownOpcode op)) ∧
    (fieldG op = 0x9 → decode op =
      if fieldN op = 0x0 then .ok (.sneReg (fieldX op) (fieldY op)) else .error (.unknownOpcode op)) ∧
    (fieldG op = 0x8 → decode op =
      if fieldN op = 0x0 then .ok (.ldReg (fieldX op) (fieldY op))
      else if fieldN op = 0x1 then .ok (.orReg (fieldX op) (fieldY op))
      else if fieldN op = 0x2 then .ok (.andReg (fieldX op) (fieldY op))
      else if fieldN op = 0x3 then .ok (.xorReg (fieldX op) (fieldY op))
      else if fieldN op = 0x4 then .ok (.addReg (fieldX op) (fieldY op))
      else if fieldN op = 0x5 then .ok (.sub (fieldX op) (fieldY op))
      else if fieldN op = 0x6 then .ok (.shr (fieldX op) (fieldY op))
      else if fieldN op = 0x7 then .ok (.subn (fieldX op) (fieldY op))
      else if fieldN op = 0xE then .ok (.shl (fieldX op) (fieldY op))
      else .error (.unknownOpcode op)) ∧
    (fieldG op = 0xE → decode op =
      if fieldKk op = 0x9E then .ok (.skp (fieldX op)) else if fieldKk op = 0xA1 then .ok (.sknp (fieldX op))
      else .error (.unknownOpcode op)) ∧
    (fieldG op = 0xF → decode op =
      if fieldKk op = 0x07 then .ok (.ldVxDt (fieldX op)) else if fieldKk op = 0x0A then .ok (.ldVxK (fieldX op))
      else if fieldKk op = 0x15 then .ok (.ldDtVx (fieldX op))
      else if fieldKk op = 0x18 then .ok (.ldStVx (fieldX op))
      else if fieldKk op = 0x1E then .ok (.addIVx (fieldX op))
      else if fieldKk op = 0x29 then .ok (.ldFVx (fieldX op))
      else if fieldKk op = 0x33 then .ok (.ldBVx (fieldX op))
      else if fieldKk op = 0x55 then .ok (.ldIVx (fieldX op))
      else if fieldKk op = 0x65 then .ok (.ldVxI (fieldX op))
      else .error (.unknownOpcode op))

/-- R51: the illegal words are exactly the five kinds listed, and a live engine that fetches one raises
UNKNOWN_OPCODE, changing nothing but the status. -/
def Obligations.Illegal_words_are_those_listed : Prop :=
  ∀ op : Word,
    (((fieldG op = 0x0 ∧ fieldN op ≠ 0x0 ∧ fieldN op ≠ 0xE) ∨
      ((fieldG op = 0x5 ∨ fieldG op = 0x9) ∧ fieldN op ≠ 0x0) ∨
      (fieldG op = 0x8 ∧ fieldN op ∈ [0x8#4, 0x9#4, 0xA#4, 0xB#4, 0xC#4, 0xD#4, 0xF#4]) ∨
      (fieldG op = 0xE ∧ fieldKk op ∉ [0x9E#8, 0xA1#8]) ∨
      (fieldG op = 0xF ∧
        fieldKk op ∉ [0x07#8, 0x0A#8, 0x15#8, 0x18#8, 0x1E#8, 0x29#8, 0x33#8, 0x55#8, 0x65#8])) ↔
      ∀ i, decode op ≠ .ok i) ∧
    ∀ s : State, s.live → s.fetches op → (∀ i, decode op ≠ .ok i) →
      step s = .next { s with status := .faulted (.unknownOpcode op s.pc) }

/-- Decode gives back every well-formed instruction from its word, and from its two bytes with whatever
follows them. -/
def Obligations.Decode_encode_round_trip : Prop :=
  ∀ i : Instr, i.wellFormed = true →
    decode (encode i) = .ok i ∧ ∀ rest, decodeBytes (encodeBytes i ++ rest) = .ok (i, rest)

/-- What decodes is well-formed and one of its row's words, and encodes to the word it came from, but for the
ignored bits op[11:4] of group 0. -/
def Obligations.Encode_decode_round_trip : Prop :=
  ∀ (op : Word) (i : Instr), decode op = .ok i →
    i.wellFormed = true ∧ (opcodeRow i).admits op = true ∧
    (fieldG op ≠ 0x0 → encode i = op) ∧ (fieldG op = 0x0 → encode i &&& 0xF00F#16 = op &&& 0xF00F#16)

/-- No word is one of two rows of the table, and a word is one of some row's exactly when it decodes. -/
def Obligations.Table_rows_are_disjoint_and_complete : Prop :=
  ∀ op : Word,
    (∀ r ∈ opcodeTable, ∀ q ∈ opcodeTable, r.admits op = true → q.admits op = true → r = q) ∧
    ((∃ r ∈ opcodeTable, r.admits op = true) ↔ ∃ i, decode op = .ok i)

/-- R50: op[11:4] of CLS and RET and the y field of 8xy6 and 8xyE are ignored; in groups E and F no bit is. -/
def Obligations.Ignored_bits_change_nothing : Prop :=
  (∀ op op' : Word, fieldG op = 0x0 → fieldG op' = 0x0 → fieldN op = fieldN op' →
    (fieldN op = 0x0 ∨ fieldN op = 0xE) → decode op = decode op') ∧
  (∀ (x y y' : Reg) (s : State),
    exec (.shr x y) s = exec (.shr x y') s ∧ exec (.shl x y) s = exec (.shl x y') s) ∧
  (∀ (op op' : Word) (i : Instr), (fieldG op = 0xE ∨ fieldG op = 0xF) →
    decode op = .ok i → decode op' = .ok i → op = op')

/-! ### The step (30_encoding.md §3) -/

/-- R54, R55, R57: a live engine with pc ≤ 4094 whose two bytes at pc, high byte first, decode to `i` runs `i`
with pc advanced by 2. If `i` completes, both timers tick under PER_STEP and the status is RUNNING; if `i`
raised a fault, its state is the next state as it stands. -/
def Obligations.Step_runs_the_decoded_instruction : Prop :=
  ∀ (s : State) (i : Instr), s.live → s.pc.toNat ≤ 4094 →
    decode (s.readByte s.pc.toNat ++ s.readByte (s.pc.toNat + 1)) = .ok i →
    step s = completeStep (exec i { s with pc := s.pc + 2 }) ∧
    (∀ t, exec i { s with pc := s.pc + 2 } = .next t → t.live →
      step s = .next { t with
        dt := if t.cfg.timerMode = .perStep then tickDown t.dt else t.dt
        st := if t.cfg.timerMode = .perStep then tickDown t.st else t.st
        status := .running }) ∧
    (∀ t f, exec i { s with pc := s.pc + 2 } = .next t → t.status = .faulted f → step s = .next t)

/-- R39: the fetch needs pc ≤ 4094, else FETCH_OUT_OF_RANGE(pc); it reads the byte at pc as the high half and
the byte at pc + 1 as the low half. -/
def Obligations.Fetch_reads_two_bytes_high_first : Prop :=
  ∀ s : State,
    (s.live → 4094 < s.pc.toNat → step s = .next { s with status := .faulted (.fetchOutOfRange s.pc) }) ∧
    (s.pc.toNat ≤ 4094 → ∃ op, s.fetches op ∧
      op.toNat = 256 * (s.readByte s.pc.toNat).toNat + (s.readByte (s.pc.toNat + 1)).toNat)

/-- R56, R98: a FAULTED engine takes no step; the host's `step()` returns the recorded fault and changes
nothing; of the host's operations only reset leaves FAULTED. -/
def Obligations.Faulted_engine_is_stuck : Prop :=
  ∀ (s : State) (f : Fault), s.status = .faulted f →
    step s = .fault f ∧ hostCall .step s = (s, .fault f) ∧
    (∀ o, o ≠ .reset → (hostCall o s).1.status = .faulted f) ∧
    (hostCall .reset s).1.status = .ready

/-- R95: a step that raises a fault writes the status and nothing else, whatever the instruction, the fetch or
the decode. -/
def Obligations.Faulting_step_is_all_or_nothing : Prop :=
  ∀ (s t : State) (f : Fault), step s = .next t → t.status = .faulted f →
    t = { s with status := .faulted f }

/-- R93, R96: each fault has its code, is raised only by what the table names and under its condition, and
records the address of the faulting instruction and the items listed. -/
def Obligations.Fault_kinds_conditions_and_info : Prop :=
  ∀ (s t : State) (f : Fault), step s = .next t → t.status = .faulted f →
    s.live ∧ f.faultPc = s.pc ∧
    match f with
    | .unknownOpcode op _ =>
      t.status.code = 1 ∧ s.fetches op ∧ ∀ r ∈ opcodeTable, r.admits op = false
    | .fetchOutOfRange _ => t.status.code = 2 ∧ 4094 < s.pc.toNat
    | .memOutOfRange a _ =>
      t.status.code = 3 ∧ 4095 < a ∧ ∃ i k, s.runs i ∧ a = s.effAddr k ∧
        ((∃ x y n, i = .drw x y n ∧ k < n) ∨ (∃ x, i = .ldBVx x ∧ k < 3) ∨
         (∃ x : Reg, (i = .ldIVx x ∨ i = .ldVxI x) ∧ k ≤ x.val))
    | .fontWrite a _ =>
      t.status.code = 4 ∧ a ≤ 0x04F ∧ ∃ i k, s.runs i ∧ a = s.effAddr k ∧
        ((∃ x, i = .ldBVx x ∧ k < 3) ∨ (∃ x : Reg, i = .ldIVx x ∧ k ≤ x.val))
    | .stackOverflow _ => t.status.code = 5 ∧ s.sp = 16 ∧ ∃ nnn, s.runs (.call nnn)
    | .stackUnderflow _ => t.status.code = 6 ∧ s.sp = 0 ∧ s.runs .ret
    | .keyIndexOutOfRange b _ =>
      t.status.code = 7 ∧ 0x0F < b.toNat ∧ ∃ x, s.getV x = b ∧ (s.runs (.skp x) ∨ s.runs (.sknp x))

/-- R57, R20: a step that completes leaves RUNNING, and the host may no longer load. -/
def Obligations.Completed_step_leaves_running : Prop :=
  ∀ s t : State, step s = .next t → t.live →
    t.status = .running ∧ ∀ bytes, hostCall (.load bytes) t = (t, .notAdmitted)

/-- R102, with R103: under PER_STEP each timer goes down by one, if it is non-zero, at the end of every
completed step, after the instruction's own write; under HOST_TICK the step leaves it as the instruction does. -/
def Obligations.Completed_step_ticks_both_timers : Prop :=
  ∀ (s t : State) (i : Instr), s.runs i → step s = .next t → t.live →
    let dtBefore := match i with | .ldDtVx x => s.getV x | _ => s.dt
    let stBefore := match i with | .ldStVx x => s.getV x | _ => s.st
    (s.cfg.timerMode = .perStep →
      t.dt.toNat = dtBefore.toNat - 1 ∧ t.st.toNat = stBefore.toNat - 1) ∧
    (s.cfg.timerMode = .hostTick → t.dt = dtBefore ∧ t.st = stBefore)

/-! ### Whole-machine invariants and promises -/

/-- The state after reset meets the invariants, for every value of the parameters. -/
def Obligations.Reset_meets_the_invariants : Prop :=
  ∀ cfg : Config, (State.resetWith cfg).memWf ∧ (State.resetWith cfg).fontIntact ∧
    (State.resetWith cfg).pcBounded ∧ (State.resetWith cfg).live

/-- Every step keeps the memory's canonical form. -/
def Obligations.Step_keeps_memory_canonical : Prop :=
  ∀ s t : State, s.memWf → step s = .next t → t.memWf

/-- The font region is immutable: no step changes a byte of 0x000..0x04F, so a font region that reads as the
fontset goes on doing so. -/
def Obligations.Step_keeps_the_font_region : Prop :=
  ∀ s t : State, step s = .next t →
    (∀ a, a ≤ 0x04F → t.readByte a = s.readByte a) ∧ (s.fontIntact → t.fontIntact)

/-- No step carries pc past 0x10FE or pushes a return address past 0x1000. -/
def Obligations.Step_keeps_pc_bounded : Prop :=
  ∀ s t : State, s.pcBounded → step s = .next t → t.pcBounded

/-- Along any sequence of host operations, steps and resets among them, the invariants hold and the parameters
stay as they are. -/
def Obligations.Host_schedule_keeps_the_invariants : Prop :=
  ∀ (os : List HostOp) (s : State), s.memWf → s.fontIntact → s.pcBounded →
    (hostRun os s).memWf ∧ (hostRun os s).fontIntact ∧ (hostRun os s).pcBounded ∧
    (hostRun os s).cfg = s.cfg

/-- Who writes what, over all instructions: only CLS and DRW write the framebuffer and frame_dirty, which they
only set; only CALL the stack, and CALL and RET sp; only LD_VX_K the keypad, and only under
P_FX0A_CLEARS_KEY; only LD_I, ADD_I_VX and LD_F_VX I; only LD_B_VX and LD_I_VX memory. -/
def Obligations.Only_the_named_instructions_write_each_state : Prop :=
  ∀ s t : State, step s = .next t →
    (t.fb ≠ s.fb → s.runs .cls ∨ ∃ x y n, s.runs (.drw x y n)) ∧
    (t.frameDirty ≠ s.frameDirty → t.frameDirty = true ∧ (s.runs .cls ∨ ∃ x y n, s.runs (.drw x y n))) ∧
    (t.stack ≠ s.stack → ∃ nnn, s.runs (.call nnn)) ∧
    (t.sp ≠ s.sp → s.runs .ret ∨ ∃ nnn, s.runs (.call nnn)) ∧
    (t.keys ≠ s.keys → s.cfg.fx0aClearsKey = true ∧ ∃ x, s.runs (.ldVxK x)) ∧
    (t.i ≠ s.i → (∃ nnn, s.runs (.ldI nnn)) ∨ ∃ x, s.runs (.addIVx x) ∨ s.runs (.ldFVx x)) ∧
    (t.mem ≠ s.mem → ∃ x, s.runs (.ldBVx x) ∨ s.runs (.ldIVx x)) ∧
    t.cfg = s.cfg

/-- VF changes only by 8xy4 to 8xy7, 8xyE and Dxyn, or as the destination of an instruction whose x is 0xF. -/
def Obligations.Only_flag_instructions_or_destination_change_VF : Prop :=
  ∀ s t : State, step s = .next t → t.getV vf ≠ s.getV vf →
    (∃ x y, s.runs (.addReg x y) ∨ s.runs (.sub x y) ∨ s.runs (.shr x y) ∨ s.runs (.subn x y) ∨
      s.runs (.shl x y)) ∨
    (∃ x y n, s.runs (.drw x y n)) ∨
    (∃ kk, s.runs (.ldImm vf kk) ∨ s.runs (.addImm vf kk) ∨ s.runs (.rnd vf kk)) ∨
    (∃ y, s.runs (.ldReg vf y) ∨ s.runs (.orReg vf y) ∨ s.runs (.andReg vf y) ∨ s.runs (.xorReg vf y)) ∨
    s.runs (.ldVxDt vf) ∨ s.runs (.ldVxK vf) ∨ s.runs (.ldVxI vf)

/-- No instruction reads the sound timer or frame_dirty: two engines that differ only in them take, with the same
draws, steps that differ only in them. The two engines stand at the same draw counters, so RND and LD_VX_K take
the same free value in both (logs 4 and 5, DESIGN CHOICE): of two engines of the hardware this holds only when
their draws agree, and it says nothing of engines whose draws differ. -/
def Obligations.Sound_timer_and_frame_dirty_are_never_read : Prop :=
  ∀ (s t : State) (b : Byte) (d : Bool), step s = .next t →
    ∃ t', step { s with st := b, frameDirty := d } = .next t' ∧
      t' = { t with st := t'.st, frameDirty := t'.frameDirty }

/-! ### Memory (20_memory.md) -/

/-- Two canonical memories that read alike at every address are equal (the model's own representation). -/
def Obligations.Canonical_memories_reading_alike_are_equal : Prop :=
  ∀ (font : Fontset) (m m' : Memory), Memory.wf font m → Memory.wf font m' →
    (∀ a, Memory.read font m a = Memory.read font m' a) → m = m'

/-- R29, R30: the range check, then for a write the font check; a read answers the byte, a write leaves that
byte as written and every other byte as it was. -/
def Obligations.Checked_read_and_write_of_a_byte : Prop :=
  ∀ (s : State) (a : Nat) (b : Byte),
    memRead s a = (if 4095 < a then .error (.memOutOfRange a s.executingAt) else .ok (s.readByte a)) ∧
    (4095 < a → memWrite s a b = .error (.memOutOfRange a s.executingAt)) ∧
    (a ≤ 0x04F → memWrite s a b = .error (.fontWrite a s.executingAt)) ∧
    (0x050 ≤ a → a ≤ 4095 → ∃ t, memWrite s a b = .ok t ∧ t = { s with mem := t.mem } ∧
      ∀ c, t.readByte c = if c = a then b else s.readByte c)

/-! ### Control flow (40_control_flow.md) -/

/-- R59, R61: JP and JP V0 set pc, to nnn and to nnn + V[0] without wrap, and change nothing else; a target
past 4094 faults at the next fetch. -/
def Obligations.Jumps_set_pc_only : Prop :=
  Encodes 0xF000 0x1000 (fun op => .jp (fieldNnn op)) ∧
  Encodes 0xF000 0xB000 (fun op => .jpV0 (fieldNnn op)) ∧
  ∀ (nnn : BitVec 12) (s : State),
    (∃ a, SetsPc (.jp nnn) s a ∧ a.toNat = nnn.toNat ∧
      (4094 < nnn.toNat → fetch { s with pc := a } = .error (.fetchOutOfRange a))) ∧
    (∃ a, SetsPc (.jpV0 nnn) s a ∧ a.toNat = nnn.toNat + (s.getV 0).toNat ∧
      (4094 < nnn.toNat + (s.getV 0).toNat → fetch { s with pc := a } = .error (.fetchOutOfRange a)))

/-- R60: CALL pushes the address after itself and jumps; with sp = 16 it raises STACK_OVERFLOW. -/
def Obligations.Call_pushes_and_jumps : Prop :=
  Encodes 0xF000 0x2000 (fun op => .call (fieldNnn op)) ∧
  ∀ (nnn : BitVec 12) (s : State),
    (s.sp.val < 16 → ∃ t, exec (.call nnn) s = .next t ∧
      t = { s with stack := t.stack, sp := t.sp, pc := t.pc } ∧
      (∀ k : Fin 16, t.stack[k.val] = if k.val = s.sp.val then s.pc else s.stack[k.val]) ∧
      t.sp.val = s.sp.val + 1 ∧ t.pc.toNat = nnn.toNat) ∧
    (s.sp = 16 → Raises (.call nnn) s (.stackOverflow s.executingAt))

/-- R58: RET pops pc and leaves the popped entry in place; with sp = 0 it raises STACK_UNDERFLOW. -/
def Obligations.Ret_pops_pc : Prop :=
  Encodes 0xF00F 0x000E (fun _ => .ret) ∧
  ∀ s : State,
    (∀ k : Fin 16, s.sp.val = k.val + 1 → ∃ t, exec .ret s = .next t ∧
      t = { s with sp := t.sp, pc := s.stack[k.val] } ∧ t.sp.val = k.val) ∧
    (s.sp = 0 → Raises .ret s (.stackUnderflow s.executingAt))

/-- A CALL and the RET that follows it, wherever the subroutine's RET stands, resume at the instruction after
the CALL with sp as before. Nothing but the stack entry the CALL pushed to changed, and it keeps the return
address. -/
def Obligations.Call_then_ret_resumes_after_the_call : Prop :=
  ∀ (nnn : BitVec 12) (s : State) (p : Word), s.sp.val < 16 →
    ∃ t u, exec (.call nnn) s = .next t ∧ exec .ret { t with pc := p } = .next u ∧
      u.pc = s.pc ∧ u.sp = s.sp ∧ u = { s with stack := u.stack } ∧
      ∀ k : Fin 16, u.stack[k.val] = if k.val = s.sp.val then s.pc else s.stack[k.val]

/-- R62 to R65: a skip adds 2 to the advanced pc exactly when its comparison holds, and changes nothing else;
a skipped-to pc past 4094 faults at the next fetch. -/
def Obligations.Skips_on_register_comparisons : Prop :=
  Encodes 0xF000 0x3000 (fun op => .seImm (fieldX op) (fieldKk op)) ∧
  Encodes 0xF000 0x4000 (fun op => .sneImm (fieldX op) (fieldKk op)) ∧
  Encodes 0xF00F 0x5000 (fun op => .seReg (fieldX op) (fieldY op)) ∧
  Encodes 0xF00F 0x9000 (fun op => .sneReg (fieldX op) (fieldY op)) ∧
  (∀ (x y : Reg) (kk : Byte) (s : State),
    SetsPc (.seImm x kk) s (if s.getV x = kk then s.pc + 2 else s.pc) ∧
    SetsPc (.sneImm x kk) s (if s.getV x ≠ kk then s.pc + 2 else s.pc) ∧
    SetsPc (.seReg x y) s (if s.getV x = s.getV y then s.pc + 2 else s.pc) ∧
    SetsPc (.sneReg x y) s (if s.getV x ≠ s.getV y then s.pc + 2 else s.pc) ∧
    SetsPc (.seReg x x) s (s.pc + 2) ∧ SetsPc (.sneReg x x) s s.pc) ∧
  ∀ s : State, 4094 < s.pc.toNat → fetch s = .error (.fetchOutOfRange s.pc)

/-! ### Loads, arithmetic, logic, shifts, random (41_alu.md) -/

/-- R67 to R72: the loads, the immediate add without a flag and the logic instructions write V[x] alone, also
when x or y is 0xF. -/
def Obligations.Loads_immediate_add_and_logic_write_only_Vx : Prop :=
  Encodes 0xF000 0x6000 (fun op => .ldImm (fieldX op) (fieldKk op)) ∧
  Encodes 0xF000 0x7000 (fun op => .addImm (fieldX op) (fieldKk op)) ∧
  Encodes 0xF00F 0x8000 (fun op => .ldReg (fieldX op) (fieldY op)) ∧
  Encodes 0xF00F 0x8001 (fun op => .orReg (fieldX op) (fieldY op)) ∧
  Encodes 0xF00F 0x8002 (fun op => .andReg (fieldX op) (fieldY op)) ∧
  Encodes 0xF00F 0x8003 (fun op => .xorReg (fieldX op) (fieldY op)) ∧
  ∀ (x y : Reg) (kk : Byte) (s : State),
    SetsReg (.ldImm x kk) s x kk ∧
    SetsReg (.addImm x kk) s x (BitVec.ofNat 8 ((s.getV x).toNat + kk.toNat)) ∧
    SetsReg (.ldReg x y) s x (s.getV y) ∧
    SetsReg (.orReg x y) s x (s.getV x ||| s.getV y) ∧
    SetsReg (.andReg x y) s x (s.getV x &&& s.getV y) ∧
    SetsReg (.xorReg x y) s x (s.getV x ^^^ s.getV y)

/-- R73: 8xy4 in both orders of P_FLAG_ORDER, with x or y equal to 0xF or not. -/
def Obligations.Add_with_carry_in_both_flag_orders : Prop :=
  Encodes 0xF00F 0x8004 (fun op => .addReg (fieldX op) (fieldY op)) ∧
  ∀ (x y : Reg) (s : State),
    let sum := (s.getV x).toNat + (s.getV y).toNat
    let carry : Byte := if 255 < sum then 1 else 0
    ∃ t, exec (.addReg x y) s = .next t ∧ t = { s with v := t.v } ∧
      (∀ r, r ≠ x → r ≠ vf → t.getV r = s.getV r) ∧
      (x ≠ vf → t.getV x = BitVec.ofNat 8 sum ∧ t.getV vf = carry) ∧
      (x = vf → s.cfg.flagOrder = .sequential → t.getV vf = BitVec.ofNat 8 sum) ∧
      (x = vf → s.cfg.flagOrder = .flagLast → t.getV vf = carry)

/-- R74: 8xy5 in both orders of P_FLAG_ORDER, with x or y equal to 0xF or not; the flag is strict. -/
def Obligations.Sub_in_both_flag_orders : Prop :=
  Encodes 0xF00F 0x8005 (fun op => .sub (fieldX op) (fieldY op)) ∧
  ∀ (x y : Reg) (s : State),
    let a := s.getV x
    let b := s.getV y
    let flag : Byte := if b.toNat < a.toNat then 1 else 0
    let minus := fun c d : Byte => BitVec.ofNat 8 (256 + c.toNat - d.toNat)
    ∃ t, exec (.sub x y) s = .next t ∧ t = { s with v := t.v } ∧
      (∀ r, r ≠ x → r ≠ vf → t.getV r = s.getV r) ∧
      (x ≠ vf → y ≠ vf → t.getV x = minus a b ∧ t.getV vf = flag) ∧
      (s.cfg.flagOrder = .sequential →
        (x = vf → y ≠ vf → t.getV vf = minus flag b) ∧
        (x ≠ vf → y = vf → t.getV x = minus a flag ∧ t.getV vf = flag)) ∧
      (s.cfg.flagOrder = .flagLast →
        (x = vf → y ≠ vf → t.getV vf = flag) ∧
        (x ≠ vf → y = vf → t.getV x = minus a b ∧ t.getV vf = flag)) ∧
      (x = vf → y = vf → t.getV vf = 0)

/-- R76: 8xy7 in both orders of P_FLAG_ORDER, with x or y equal to 0xF or not; the flag is strict. -/
def Obligations.Subn_in_both_flag_orders : Prop :=
  Encodes 0xF00F 0x8007 (fun op => .subn (fieldX op) (fieldY op)) ∧
  ∀ (x y : Reg) (s : State),
    let a := s.getV x
    let b := s.getV y
    let flag : Byte := if a.toNat < b.toNat then 1 else 0
    let minus := fun c d : Byte => BitVec.ofNat 8 (256 + c.toNat - d.toNat)
    ∃ t, exec (.subn x y) s = .next t ∧ t = { s with v := t.v } ∧
      (∀ r, r ≠ x → r ≠ vf → t.getV r = s.getV r) ∧
      (x ≠ vf → y ≠ vf → t.getV x = minus b a ∧ t.getV vf = flag) ∧
      (s.cfg.flagOrder = .sequential →
        (x = vf → y ≠ vf → t.getV vf = minus b flag) ∧
        (x ≠ vf → y = vf → t.getV x = minus flag a ∧ t.getV vf = flag)) ∧
      (s.cfg.flagOrder = .flagLast →
        (x = vf → y ≠ vf → t.getV vf = flag) ∧
        (x ≠ vf → y = vf → t.getV x = minus b a ∧ t.getV vf = flag)) ∧
      (x = vf → y = vf → t.getV vf = 0)

/-- R75, R77: the shifts in both orders of P_FLAG_ORDER, with x equal to 0xF or not; V[y] is neither read nor
written. -/
def Obligations.Shifts_in_both_flag_orders : Prop :=
  Encodes 0xF00F 0x8006 (fun op => .shr (fieldX op) (fieldY op)) ∧
  Encodes 0xF00F 0x800E (fun op => .shl (fieldX op) (fieldY op)) ∧
  ∀ (x y : Reg) (s : State),
    let a := (s.getV x).toNat
    (∃ t, exec (.shr x y) s = .next t ∧ t = { s with v := t.v } ∧
      (∀ r, r ≠ x → r ≠ vf → t.getV r = s.getV r) ∧
      (x ≠ vf → (t.getV x).toNat = a / 2 ∧ (t.getV vf).toNat = a % 2) ∧
      (x = vf → s.cfg.flagOrder = .sequential → t.getV vf = 0) ∧
      (x = vf → s.cfg.flagOrder = .flagLast → (t.getV vf).toNat = a % 2)) ∧
    (∃ t, exec (.shl x y) s = .next t ∧ t = { s with v := t.v } ∧
      (∀ r, r ≠ x → r ≠ vf → t.getV r = s.getV r) ∧
      (x ≠ vf → (t.getV x).toNat = a * 2 % 256 ∧ (t.getV vf).toNat = a / 128) ∧
      (x = vf → s.cfg.flagOrder = .sequential → (t.getV vf).toNat = a / 128 * 2) ∧
      (x = vf → s.cfg.flagOrder = .flagLast → (t.getV vf).toNat = a / 128))

/-- The two orders of P_FLAG_ORDER leave the same registers when neither x nor y is 0xF, and for 8xy4, 8xy6 and
8xyE already when x is not. -/
def Obligations.Flag_orders_agree_away_from_VF : Prop :=
  ∀ (x y : Reg) (s : State), x ≠ vf →
    let seq := { s with cfg := { s.cfg with flagOrder := .sequential } }
    let last := { s with cfg := { s.cfg with flagOrder := .flagLast } }
    ∀ i ∈ [Instr.addReg x y, .shr x y, .shl x y] ++ (if y = vf then [] else [Instr.sub x y, .subn x y]),
      ∃ t u, exec i seq = .next t ∧ exec i last = .next u ∧ t.v = u.v

/-- The random byte masked by kk, after R78: for every draw the result's set bits lie in kk; a mask of zero gives
zero, a mask of 0xFF the draw itself; every other register and all other state are unchanged. That the draw is
Config.randomDraw at the counter randomDraws, and that the counter advances by 1, is the model's own form of R7's
free draw (log 4, DESIGN CHOICE of form), no rule of the spec; nothing is known of the value drawn. -/
def Obligations.Rnd_masks_the_draw : Prop :=
  Encodes 0xF000 0xC000 (fun op => .rnd (fieldX op) (fieldKk op)) ∧
  ∀ (x : Reg) (kk : Byte) (s : State),
    ∃ t, exec (.rnd x kk) s = .next t ∧
      t = { s with v := t.v, randomDraws := s.randomDraws + 1 } ∧
      t.getV x = Config.randomDraw s.randomDraws &&& kk ∧
      (∀ r, r ≠ x → t.getV r = s.getV r) ∧
      (∀ k, (t.getV x).getLsbD k = true → kk.getLsbD k = true) ∧
      (kk = 0x00 → t.getV x = 0x00) ∧ (kk = 0xFF → t.getV x = Config.randomDraw s.randomDraws)

/-! ### Index register and memory transfers (42_index_memory.md) -/

/-- R79 to R81: Annn, Fx1E and Fx29 write I alone: nnn, the 16-bit wrapped sum, five times the whole byte. -/
def Obligations.Index_register_writes : Prop :=
  Encodes 0xF000 0xA000 (fun op => .ldI (fieldNnn op)) ∧
  Encodes 0xF0FF 0xF01E (fun op => .addIVx (fieldX op)) ∧
  Encodes 0xF0FF 0xF029 (fun op => .ldFVx (fieldX op)) ∧
  ∀ (nnn : BitVec 12) (x : Reg) (s : State),
    (∃ a, exec (.ldI nnn) s = .next { s with i := a } ∧ a.toNat = nnn.toNat) ∧
    (∃ a, exec (.addIVx x) s = .next { s with i := a } ∧
      a.toNat = (s.i.toNat + (s.getV x).toNat) % 65536) ∧
    (∃ a, exec (.ldFVx x) s = .next { s with i := a } ∧ a.toNat = (s.getV x).toNat * 5)

/-- R82: Fx33 stores the three digits at I, I+1, I+2 and nothing else; the first address that is past 4095 or
in the font faults, and then nothing is written. -/
def Obligations.Decimal_digits_are_stored : Prop :=
  Encodes 0xF0FF 0xF033 (fun op => .ldBVx (fieldX op)) ∧
  ∀ (x : Reg) (s : State),
    let v := (s.getV x).toNat
    (0x050 ≤ s.effAddr 0 → s.effAddr 2 ≤ 4095 →
      ∃ t, exec (.ldBVx x) s = .next t ∧ t = { s with mem := t.mem } ∧
        (t.readByte (s.effAddr 0)).toNat = v / 100 ∧ (t.readByte (s.effAddr 1)).toNat = v / 10 % 10 ∧
        (t.readByte (s.effAddr 2)).toNat = v % 10 ∧
        ∀ a, (∀ k, k ≤ 2 → a ≠ s.effAddr k) → t.readByte a = s.readByte a) ∧
    (∀ k, k ≤ 2 → (∀ j, j < k → 0x050 ≤ s.effAddr j ∧ s.effAddr j ≤ 4095) →
      (4095 < s.effAddr k → Raises (.ldBVx x) s (.memOutOfRange (s.effAddr k) s.executingAt)) ∧
      (s.effAddr k ≤ 0x04F → Raises (.ldBVx x) s (.fontWrite (s.effAddr k) s.executingAt)))

/-- R83: Fx55 stores V[0]..V[x] at I..I+x and nothing else; the first address that is past 4095 or in the font
faults, and then nothing is written. -/
def Obligations.Register_block_is_stored : Prop :=
  Encodes 0xF0FF 0xF055 (fun op => .ldIVx (fieldX op)) ∧
  ∀ (x : Reg) (s : State),
    (0x050 ≤ s.effAddr 0 → s.effAddr x.val ≤ 4095 →
      ∃ t, exec (.ldIVx x) s = .next t ∧ t = { s with mem := t.mem } ∧
        (∀ k : Reg, k ≤ x → t.readByte (s.effAddr k.val) = s.getV k) ∧
        ∀ a, (∀ k : Reg, k ≤ x → a ≠ s.effAddr k.val) → t.readByte a = s.readByte a) ∧
    (∀ k, k ≤ x.val → (∀ j, j < k → 0x050 ≤ s.effAddr j ∧ s.effAddr j ≤ 4095) →
      (4095 < s.effAddr k → Raises (.ldIVx x) s (.memOutOfRange (s.effAddr k) s.executingAt)) ∧
      (s.effAddr k ≤ 0x04F → Raises (.ldIVx x) s (.fontWrite (s.effAddr k) s.executingAt)))

/-- R84: Fx65 loads V[0]..V[x] from I..I+x, the font region included, and changes no other register and no
memory; the first address past 4095 faults, and then no register is written. -/
def Obligations.Register_block_is_loaded : Prop :=
  Encodes 0xF0FF 0xF065 (fun op => .ldVxI (fieldX op)) ∧
  ∀ (x : Reg) (s : State),
    (s.effAddr x.val ≤ 4095 →
      ∃ t, exec (.ldVxI x) s = .next t ∧ t = { s with v := t.v } ∧
        (∀ k : Reg, k ≤ x → t.getV k = s.readByte (s.effAddr k.val)) ∧
        (∀ k : Reg, x < k → t.getV k = s.getV k)) ∧
    (∀ k, k ≤ x.val → (∀ j, j < k → s.effAddr j ≤ 4095) → 4095 < s.effAddr k →
      Raises (.ldVxI x) s (.memOutOfRange (s.effAddr k) s.executingAt))

/-- Fx55 then Fx65 with the same x and I gives V[0..x] back, whatever the registers held in between. -/
def Obligations.Store_then_load_round_trips_registers : Prop :=
  ∀ (x : Reg) (s : State) (v : Vector Byte 16) (p : Word),
    0x050 ≤ s.effAddr 0 → s.effAddr x.val ≤ 4095 →
    ∃ t u, exec (.ldIVx x) s = .next t ∧ exec (.ldVxI x) { t with v := v, pc := p } = .next u ∧
      (∀ k : Reg, k ≤ x → u.getV k = s.getV k) ∧ (∀ k : Reg, x < k → u.getV k = v[k.val]) ∧ u.i = s.i

/-- A program can write instructions and execute them at the next step: after an Fx55 whose block covers the
two bytes at pc, the fetch reads the registers just stored. -/
def Obligations.Fetch_sees_the_store_of_the_step_before : Prop :=
  ∀ (x k l : Reg) (s : State),
    0x050 ≤ s.effAddr 0 → s.effAddr x.val ≤ 4095 → l.val = k.val + 1 → l ≤ x → s.pc.toNat = s.effAddr k.val →
    ∃ t, exec (.ldIVx x) s = .next t ∧ fetch t = .ok (s.getV k ++ s.getV l)

/-! ### Display (43_display.md) -/

/-- R85: CLS turns every pixel off and sets frame_dirty; VF and everything else stay. -/
def Obligations.Cls_clears_the_display : Prop :=
  Encodes 0xF00F 0x0000 (fun _ => .cls) ∧
  ∀ s : State, ∃ t, exec .cls s = .next t ∧ t = { s with fb := t.fb, frameDirty := true } ∧
    ∀ row col, t.fb.pixel row col = false

/-- R86: DRW flips exactly the pixels a set sprite bit falls on, each wrapped on its own; VF is 1 exactly when
one of them was lit; frame_dirty is set; nothing else changes. With n = 0 no memory is read and no pixel
changes. The first row past 4095 faults, and then nothing changes. -/
def Obligations.Drw_xors_the_sprite_and_reports_collision : Prop :=
  Encodes 0xF000 0xD000 (fun op => .drw (fieldX op) (fieldY op) (fieldN op).toNat) ∧
  ∀ (x y : Reg) (n : Nat) (s : State), (Instr.drw x y n).wellFormed = true →
    ((n = 0 ∨ s.effAddr n ≤ 4096) →
      ∃ t, exec (.drw x y n) s = .next t ∧ t = { s with v := t.v, fb := t.fb, frameDirty := true } ∧
        (∀ row col, t.fb.pixel row col ≠ s.fb.pixel row col ↔ s.spriteCovers x y n row col) ∧
        (t.getV vf = 1 ∨ t.getV vf = 0) ∧
        (t.getV vf = 1 ↔ ∃ row col, s.spriteCovers x y n row col ∧ s.fb.pixel row col = true) ∧
        ∀ r, r ≠ vf → t.getV r = s.getV r) ∧
    (∀ r, r < n → (∀ q, q < r → s.effAddr q ≤ 4095) → 4095 < s.effAddr r →
      Raises (.drw x y n) s (.memOutOfRange (s.effAddr r) s.executingAt))

/-- The same DRW twice, with coordinates not in VF, restores the framebuffer; the second draw has VF = 1
exactly when the first lit a pixel (R86's own corner case; vector T5 of 95_test_vectors.md says it more widely,
log 28). -/
def Obligations.Drw_twice_restores_the_framebuffer : Prop :=
  ∀ (x y : Reg) (n : Nat) (s : State) (p : Word),
    (Instr.drw x y n).wellFormed = true → (n = 0 ∨ s.effAddr n ≤ 4096) → x ≠ vf → y ≠ vf →
    ∃ t u, exec (.drw x y n) s = .next t ∧ exec (.drw x y n) { t with pc := p } = .next u ∧
      u.fb = s.fb ∧
      (u.getV vf = 1 ↔ ∃ row col, s.fb.pixel row col = false ∧ t.fb.pixel row col = true)

/-! ### Keypad and timers (44_keypad_timers.md) -/

/-- R87, R88: SKP and SKNP skip on the key V[x] names and change nothing but pc; a value above 0x0F raises
KEY_INDEX_OUT_OF_RANGE. -/
def Obligations.Key_skips_test_the_named_key : Prop :=
  Encodes 0xF0FF 0xE09E (fun op => .skp (fieldX op)) ∧
  Encodes 0xF0FF 0xE0A1 (fun op => .sknp (fieldX op)) ∧
  ∀ (x : Reg) (s : State),
    (∀ k : Key, (s.getV x).toNat = k.val →
      SetsPc (.skp x) s (if s.keyDown k = true then s.pc + 2 else s.pc) ∧
      SetsPc (.sknp x) s (if s.keyDown k = false then s.pc + 2 else s.pc)) ∧
    (0x0F < (s.getV x).toNat →
      Raises (.skp x) s (.keyIndexOutOfRange (s.getV x) s.executingAt) ∧
      Raises (.sknp x) s (.keyIndexOutOfRange (s.getV x) s.executingAt))

/-- R90: with no key pressed Fx0A completes with pc back at itself and nothing else changed; with some pressed,
whatever the draw, V[x] gets the number of a pressed key, which is released exactly under
P_FX0A_CLEARS_KEY; nothing else changes but the draw counter keyDraws. That counter is the model's own form of R7's
free draw (log 5, DESIGN CHOICE of form), so the frame leaves it out. The tick of the same step is
Completed_step_ticks_both_timers. -/
def Obligations.Key_wait_polls_or_takes_a_pressed_key : Prop :=
  Encodes 0xF0FF 0xF00A (fun op => .ldVxK (fieldX op)) ∧
  ∀ (x : Reg) (s : State),
    ((∀ k, s.keyDown k = false) → SetsPc (.ldVxK x) s (s.pc - 2)) ∧
    ((∃ k, s.keyDown k = true) →
      ∃ t k, exec (.ldVxK x) s = .next t ∧ s.keyDown k = true ∧
        t = { s with v := t.v, keys := t.keys, keyDraws := t.keyDraws } ∧
        (t.getV x).toNat = k.val ∧ (∀ r, r ≠ x → t.getV r = s.getV r) ∧
        (∀ j, t.keyDown j = (s.keyDown j && !(s.cfg.fx0aClearsKey && decide (j = k)))))

/-- R89, R91, R92 as the instructions themselves: Fx07 reads DT before the tick, Fx15 and Fx18 write DT and ST,
and nothing else changes. The tick of the same step is stated by Completed_step_ticks_both_timers. -/
def Obligations.Timer_reads_and_writes : Prop :=
  Encodes 0xF0FF 0xF007 (fun op => .ldVxDt (fieldX op)) ∧
  Encodes 0xF0FF 0xF015 (fun op => .ldDtVx (fieldX op)) ∧
  Encodes 0xF0FF 0xF018 (fun op => .ldStVx (fieldX op)) ∧
  ∀ (x : Reg) (s : State),
    SetsReg (.ldVxDt x) s x s.dt ∧
    exec (.ldDtVx x) s = .next { s with dt := s.getV x } ∧
    exec (.ldStVx x) s = .next { s with st := s.getV x }

/-! ### Reset, the host and the end of a run (60_exceptions.md, 70_reset_and_hazards.md) -/

/-- R113: what reset leaves, for every value of the parameters, at power-on and when the host resets; no part
of a previous run survives (the draw counters, the model's own, go on: log 6). -/
def Obligations.Reset_leaves_the_stated_values : Prop :=
  ∀ (s t : State), (t = State.resetWith s.cfg ∨ hostCall .reset s = (t, .ok)) →
    (∀ a, t.readByte a = if h : a < 80 then s.cfg.fontset[a] else 0x00) ∧
    (∀ x, t.getV x = 0x00) ∧ t.i = 0x0000 ∧ (∀ k : Fin 16, t.stack[k.val] = 0x0000) ∧ t.sp = 0 ∧
    (∀ k, t.keyDown k = false) ∧ t.dt = 0 ∧ t.st = 0 ∧ t.pc = 0x0200 ∧
    (∀ row col, t.fb.pixel row col = false) ∧ t.frameDirty = false ∧ t.status = .ready ∧ t.cfg = s.cfg

/-- R115: load writes the ROM from 0x200 and nothing else, in READY; more than 3584 bytes is RomTooLarge and
changes nothing; in any other status it is not admitted. -/
def Obligations.Load_writes_the_rom : Prop :=
  ∀ (bytes : List Byte) (s : State),
    (s.status = .ready → bytes.length ≤ 4096 - 0x200 →
      ∃ t, hostCall (.load bytes) s = (t, .ok) ∧ t = { s with mem := t.mem } ∧
        (∀ k (h : k < bytes.length), t.readByte (0x200 + k) = bytes[k]) ∧
        (∀ a, (a < 0x200 ∨ 0x200 + bytes.length ≤ a) → t.readByte a = s.readByte a)) ∧
    (s.status = .ready → 4096 - 0x200 < bytes.length → hostCall (.load bytes) s = (s, .romTooLarge)) ∧
    (s.status ≠ .ready → hostCall (.load bytes) s = (s, .notAdmitted))

/-- R104: set_key writes the one key named, in any status; an index of 16 or more is refused. -/
def Obligations.Set_key_writes_one_key : Prop :=
  ∀ (index : Nat) (pressed : Bool) (s : State),
    (∀ k : Key, index = k.val → ∃ t, hostCall (.setKey index pressed) s = (t, .ok) ∧
      t = { s with keys := t.keys } ∧ ∀ j, t.keyDown j = if j = k then pressed else s.keyDown j) ∧
    (16 ≤ index → hostCall (.setKey index pressed) s = (s, .notAdmitted))

/-- R105 to R107: the read accessors answer their state and change nothing; clear_frame_dirty clears the bit
alone. -/
def Obligations.Accessors_read_and_clear_frame_dirty : Prop :=
  ∀ s : State,
    hostCall .framebuffer s = (s, .grid s.fb) ∧ hostCall .frameDirty s = (s, .bit s.frameDirty) ∧
    hostCall .delayTimer s = (s, .byte s.dt) ∧ hostCall .soundTimer s = (s, .byte s.st) ∧
    hostCall .status s = (s, .status s.status) ∧
    hostCall .clearFrameDirty s = ({ s with frameDirty := false }, .ok) ∧
    hostCall .frameDirty (hostCall .clearFrameDirty s).1 = ((hostCall .clearFrameDirty s).1, .bit false)

/-- R103: under HOST_TICK tick_timers lowers each non-zero timer by one and changes nothing else, and a
completed step does not tick; under PER_STEP the call is not admitted. -/
def Obligations.Host_ticks_the_timers_under_host_tick : Prop :=
  ∀ s : State,
    (s.cfg.timerMode = .hostTick → ∃ t, hostCall .tickTimers s = (t, .ok) ∧
      t = { s with dt := t.dt, st := t.st } ∧
      t.dt.toNat = s.dt.toNat - 1 ∧ t.st.toNat = s.st.toNat - 1) ∧
    (s.cfg.timerMode = .hostTick → ∀ t, step s = .next t →
      (t.dt ≠ s.dt → ∃ x, s.runs (.ldDtVx x)) ∧ (t.st ≠ s.st → ∃ x, s.runs (.ldStVx x))) ∧
    (s.cfg.timerMode = .perStep → hostCall .tickTimers s = (s, .notAdmitted))

/-- A parked engine stays parked: any number of further steps changes nothing but the timers, which count down
to 0 under PER_STEP and stand still under HOST_TICK; the status is RUNNING. -/
def Obligations.Parked_engine_stays_parked : Prop :=
  ∀ (a : BitVec 12) (s : State) (n : Nat), s.live → s.parkedAt a →
    ∃ t, Sys2Proof.core.run (n + 1) s = .next t ∧
      t = { s with dt := t.dt, st := t.st, status := .running } ∧ t.parkedAt a ∧
      (s.cfg.timerMode = .perStep →
        t.dt.toNat = s.dt.toNat - (n + 1) ∧ t.st.toNat = s.st.toNat - (n + 1)) ∧
      (s.cfg.timerMode = .hostTick → t.dt = s.dt ∧ t.st = s.st)

end
end

