-- ==== Sys2Proof/Laws/Decode.lean ====
section
/-! SUPPORT. The fields of a packed word, one lemma per field and format, and what the fields say of the masks
of the opcode table. -/

namespace Sys2Proof

theorem regOfBits_regBits (r : Reg) : regOfBits (regBits r) = r := by
  apply Fin.ext
  have := r.isLt
  simp [regOfBits, regBits]

theorem regBits_regOfBits (b : BitVec 4) : regBits (regOfBits b) = b := by
  apply BitVec.eq_of_toNat_eq
  have := b.isLt
  simp [regOfBits, regBits]

/-! ### Format NNN -/

theorem fieldG_packNnn (g : BitVec 4) (nnn : BitVec 12) : fieldG (packNnn g nnn) = g :=
  BitVec.extractLsb'_append_eq_left

theorem fieldNnn_packNnn (g : BitVec 4) (nnn : BitVec 12) : fieldNnn (packNnn g nnn) = nnn :=
  BitVec.extractLsb'_append_eq_right

/-! ### Formats XKK and XS -/

theorem fieldG_packXkk (g : BitVec 4) (x : Reg) (kk : Byte) : fieldG (packXkk g x kk) = g := by
  apply BitVec.eq_of_getLsbD_eq
  intro i hi
  simp only [fieldG, packXkk, BitVec.getLsbD_extractLsb', BitVec.getLsbD_append]
  have h1 : ¬ 12 + i < 8 := by omega
  have h2 : ¬ 12 + i - 8 < 4 := by omega
  have e : 12 + i - 8 - 4 = i := by omega
  simp [h1, h2, e, hi]

theorem fieldX_packXkk (g : BitVec 4) (x : Reg) (kk : Byte) : fieldX (packXkk g x kk) = x := by
  have h : (packXkk g x kk).extractLsb' 8 4 = regBits x := by
    apply BitVec.eq_of_getLsbD_eq
    intro i hi
    simp only [packXkk, BitVec.getLsbD_extractLsb', BitVec.getLsbD_append]
    have h1 : ¬ 8 + i < 8 := by omega
    have e : 8 + i - 8 = i := by omega
    simp [h1, e, hi]
  rw [fieldX, h, regOfBits_regBits]

theorem fieldKk_packXkk (g : BitVec 4) (x : Reg) (kk : Byte) : fieldKk (packXkk g x kk) = kk :=
  BitVec.extractLsb'_append_eq_right

/-! ### Formats XYS and XYN -/

theorem fieldG_packXyn (g : BitVec 4) (x y : Reg) (n : BitVec 4) : fieldG (packXyn g x y n) = g := by
  apply BitVec.eq_of_getLsbD_eq
  intro i hi
  simp only [fieldG, packXyn, BitVec.getLsbD_extractLsb', BitVec.getLsbD_append]
  have h1 : ¬ 12 + i < 4 := by omega
  have h2 : ¬ 12 + i - 4 < 4 := by omega
  have h3 : ¬ 12 + i - 4 - 4 < 4 := by omega
  have e : 12 + i - 4 - 4 - 4 = i := by omega
  simp [h1, h2, h3, e, hi]

theorem fieldX_packXyn (g : BitVec 4) (x y : Reg) (n : BitVec 4) : fieldX (packXyn g x y n) = x := by
  have h : (packXyn g x y n).extractLsb' 8 4 = regBits x := by
    apply BitVec.eq_of_getLsbD_eq
    intro i hi
    simp only [packXyn, BitVec.getLsbD_extractLsb', BitVec.getLsbD_append]
    have h1 : ¬ 8 + i < 4 := by omega
    have h2 : ¬ 8 + i - 4 < 4 := by omega
    have e : 8 + i - 4 - 4 = i := by omega
    simp [h1, h2, e, hi]
  rw [fieldX, h, regOfBits_regBits]

theorem fieldY_packXyn (g : BitVec 4) (x y : Reg) (n : BitVec 4) : fieldY (packXyn g x y n) = y := by
  have h : (packXyn g x y n).extractLsb' 4 4 = regBits y := by
    apply BitVec.eq_of_getLsbD_eq
    intro i hi
    simp only [packXyn, BitVec.getLsbD_extractLsb', BitVec.getLsbD_append]
    have h1 : ¬ 4 + i < 4 := by omega
    have e : 4 + i - 4 = i := by omega
    simp [h1, e, hi]
  rw [fieldY, h, regOfBits_regBits]

theorem fieldN_packXyn (g : BitVec 4) (x y : Reg) (n : BitVec 4) : fieldN (packXyn g x y n) = n :=
  BitVec.extractLsb'_append_eq_right

/-! ### A word is its fields -/

theorem packNnn_fields (op : Word) : packNnn (fieldG op) (fieldNnn op) = op := by
  apply BitVec.eq_of_getLsbD_eq
  intro i hi
  simp only [packNnn, fieldG, fieldNnn, BitVec.getLsbD_append, BitVec.getLsbD_extractLsb']
  by_cases h : i < 12
  · simp [h]
  · have e : 12 + (i - 12) = i := by omega
    have h4 : i - 12 < 4 := by omega
    simp [h, e, h4]

theorem packXkk_fields (op : Word) : packXkk (fieldG op) (fieldX op) (fieldKk op) = op := by
  apply BitVec.eq_of_getLsbD_eq
  intro i hi
  simp only [packXkk, fieldG, fieldX, regBits_regOfBits, fieldKk, BitVec.getLsbD_append,
    BitVec.getLsbD_extractLsb']
  by_cases h : i < 8
  · simp [h]
  · by_cases h2 : i < 12
    · have e : 8 + (i - 8) = i := by omega
      have h4 : i - 8 < 4 := by omega
      simp [h, e, h4]
    · have e : 12 + (i - 8 - 4) = i := by omega
      have h4 : ¬ i - 8 < 4 := by omega
      have h5 : i - 8 - 4 < 4 := by omega
      simp [h, e, h4, h5]

theorem packXyn_fields (op : Word) : packXyn (fieldG op) (fieldX op) (fieldY op) (fieldN op) = op := by
  apply BitVec.eq_of_getLsbD_eq
  intro i hi
  simp only [packXyn, fieldG, fieldX, fieldY, regBits_regOfBits, fieldN, BitVec.getLsbD_append,
    BitVec.getLsbD_extractLsb']
  by_cases h : i < 4
  · simp [h]
  · by_cases h2 : i < 8
    · have e : 4 + (i - 4) = i := by omega
      have h4 : i - 4 < 4 := by omega
      simp [h, e, h4]
    · by_cases h3 : i < 12
      · have e : 8 + (i - 4 - 4) = i := by omega
        have h4 : ¬ i - 4 < 4 := by omega
        have h5 : i - 4 - 4 < 4 := by omega
        simp [h, e, h4, h5]
      · have e : 12 + (i - 4 - 4 - 4) = i := by omega
        have h4 : ¬ i - 4 < 4 := by omega
        have h5 : ¬ i - 4 - 4 < 4 := by omega
        have h6 : i - 4 - 4 - 4 < 4 := by omega
        simp [h, e, h4, h5, h6]

/-! ### The masks of the table -/

theorem packNnn_and_mask_g (g : BitVec 4) (nnn : BitVec 12) : packNnn g nnn &&& 0xF000#16 = packNnn g 0 := by
  show (g ++ nnn) &&& ((0xF#4 : BitVec 4) ++ (0#12 : BitVec 12)) = g ++ 0#12
  rw [BitVec.and_append, show g &&& 0xF#4 = g from BitVec.and_allOnes, BitVec.and_zero]

theorem packXkk_and_mask_g (g : BitVec 4) (x : Reg) (kk : Byte) :
    packXkk g x kk &&& 0xF000#16 = packXkk g 0 0 := by
  show (g ++ regBits x ++ kk) &&& ((0xF#4 : BitVec 4) ++ (0#4 : BitVec 4) ++ (0#8 : BitVec 8)) =
    g ++ 0#4 ++ 0#8
  rw [BitVec.and_append, BitVec.and_append, show g &&& 0xF#4 = g from BitVec.and_allOnes,
    BitVec.and_zero, BitVec.and_zero]

theorem packXkk_and_mask_g_kk (g : BitVec 4) (x : Reg) (kk : Byte) :
    packXkk g x kk &&& 0xF0FF#16 = packXkk g 0 kk := by
  show (g ++ regBits x ++ kk) &&& ((0xF#4 : BitVec 4) ++ (0#4 : BitVec 4) ++ (0xFF#8 : BitVec 8)) =
    g ++ 0#4 ++ kk
  rw [BitVec.and_append, BitVec.and_append, show g &&& 0xF#4 = g from BitVec.and_allOnes,
    show kk &&& 0xFF#8 = kk from BitVec.and_allOnes, BitVec.and_zero]

theorem packXyn_and_mask_g (g : BitVec 4) (x y : Reg) (n : BitVec 4) :
    packXyn g x y n &&& 0xF000#16 = packXyn g 0 0 0 := by
  show (g ++ regBits x ++ regBits y ++ n) &&&
      ((0xF#4 : BitVec 4) ++ (0#4 : BitVec 4) ++ (0#4 : BitVec 4) ++ (0#4 : BitVec 4)) =
    g ++ 0#4 ++ 0#4 ++ 0#4
  rw [BitVec.and_append, BitVec.and_append, BitVec.and_append,
    show g &&& 0xF#4 = g from BitVec.and_allOnes, BitVec.and_zero, BitVec.and_zero, BitVec.and_zero]

theorem packXyn_and_mask_g_n (g : BitVec 4) (x y : Reg) (n : BitVec 4) :
    packXyn g x y n &&& 0xF00F#16 = packXyn g 0 0 n := by
  show (g ++ regBits x ++ regBits y ++ n) &&&
      ((0xF#4 : BitVec 4) ++ (0#4 : BitVec 4) ++ (0#4 : BitVec 4) ++ (0xF#4 : BitVec 4)) =
    g ++ 0#4 ++ 0#4 ++ n
  rw [BitVec.and_append, BitVec.and_append, BitVec.and_append,
    show g &&& 0xF#4 = g from BitVec.and_allOnes, show n &&& 0xF#4 = n from BitVec.and_allOnes,
    BitVec.and_zero, BitVec.and_zero]

/-! ### Two bytes and a word (R31) -/

theorem wordOfBytes_toNat (hi lo : Byte) : (wordOfBytes hi lo).toNat = 256 * hi.toNat + lo.toNat := by
  have h := lo.isLt
  rw [wordOfBytes, BitVec.toNat_append, ← Nat.shiftLeft_add_eq_or_of_lt h, Nat.shiftLeft_eq]
  omega

theorem wordOfBytes_bytes (op : Word) : wordOfBytes (op.extractLsb' 8 8) (op.extractLsb' 0 8) = op := by
  apply BitVec.eq_of_getLsbD_eq
  intro i hi
  simp only [wordOfBytes, BitVec.getLsbD_append, BitVec.getLsbD_extractLsb']
  by_cases h : i < 8
  · simp [h]
  · have e : 8 + (i - 8) = i := by omega
    have h8 : i - 8 < 8 := by omega
    simp [h, e, h8]

/-! ### A masked word tells its fields -/

theorem fieldG_of_mask_g (op w : Word) (h : op &&& 0xF000#16 = w) : fieldG op = fieldG w := by
  rw [← h, ← packNnn_fields op, packNnn_and_mask_g, fieldG_packNnn, fieldG_packNnn]

theorem fieldG_of_mask_g_n (op w : Word) (h : op &&& 0xF00F#16 = w) : fieldG op = fieldG w := by
  rw [← h, ← packXyn_fields op, packXyn_and_mask_g_n, fieldG_packXyn, fieldG_packXyn]

theorem fieldN_of_mask_g_n (op w : Word) (h : op &&& 0xF00F#16 = w) : fieldN op = fieldN w := by
  rw [← h, ← packXyn_fields op, packXyn_and_mask_g_n, fieldN_packXyn, fieldN_packXyn]

theorem fieldG_of_mask_g_kk (op w : Word) (h : op &&& 0xF0FF#16 = w) : fieldG op = fieldG w := by
  rw [← h, ← packXkk_fields op, packXkk_and_mask_g_kk, fieldG_packXkk, fieldG_packXkk]

theorem fieldKk_of_mask_g_kk (op w : Word) (h : op &&& 0xF0FF#16 = w) : fieldKk op = fieldKk w := by
  rw [← h, ← packXkk_fields op, packXkk_and_mask_g_kk, fieldKk_packXkk, fieldKk_packXkk]

end Sys2Proof
end

