-- ==== Sys2Proof/Laws/State.lean ====
section
/-! SUPPORT. What each named update of State leaves in each field. -/

namespace Sys2Proof.Machine

/-! ### `State.setV` -/

@[simp] theorem State.setV_v (s : State) (x : Reg) (b : Byte) :
    (s.setV x b).v = s.v.set x.val b := rfl

@[simp] theorem State.setV_i (s : State) (x : Reg) (b : Byte) :
    (s.setV x b).i = s.i := rfl

@[simp] theorem State.setV_pc (s : State) (x : Reg) (b : Byte) :
    (s.setV x b).pc = s.pc := rfl

@[simp] theorem State.setV_stack (s : State) (x : Reg) (b : Byte) :
    (s.setV x b).stack = s.stack := rfl

@[simp] theorem State.setV_sp (s : State) (x : Reg) (b : Byte) :
    (s.setV x b).sp = s.sp := rfl

@[simp] theorem State.setV_dt (s : State) (x : Reg) (b : Byte) :
    (s.setV x b).dt = s.dt := rfl

@[simp] theorem State.setV_st (s : State) (x : Reg) (b : Byte) :
    (s.setV x b).st = s.st := rfl

@[simp] theorem State.setV_keys (s : State) (x : Reg) (b : Byte) :
    (s.setV x b).keys = s.keys := rfl

@[simp] theorem State.setV_fb (s : State) (x : Reg) (b : Byte) :
    (s.setV x b).fb = s.fb := rfl

@[simp] theorem State.setV_frameDirty (s : State) (x : Reg) (b : Byte) :
    (s.setV x b).frameDirty = s.frameDirty := rfl

@[simp] theorem State.setV_status (s : State) (x : Reg) (b : Byte) :
    (s.setV x b).status = s.status := rfl

@[simp] theorem State.setV_mem (s : State) (x : Reg) (b : Byte) :
    (s.setV x b).mem = s.mem := rfl

@[simp] theorem State.setV_cfg (s : State) (x : Reg) (b : Byte) :
    (s.setV x b).cfg = s.cfg := rfl

@[simp] theorem State.setV_randomDraws (s : State) (x : Reg) (b : Byte) :
    (s.setV x b).randomDraws = s.randomDraws := rfl

@[simp] theorem State.setV_keyDraws (s : State) (x : Reg) (b : Byte) :
    (s.setV x b).keyDraws = s.keyDraws := rfl

/-! ### `State.pokeByte` -/

@[simp] theorem State.pokeByte_v (s : State) (a : Nat) (b : Byte) :
    (s.pokeByte a b).v = s.v := rfl

@[simp] theorem State.pokeByte_i (s : State) (a : Nat) (b : Byte) :
    (s.pokeByte a b).i = s.i := rfl

@[simp] theorem State.pokeByte_pc (s : State) (a : Nat) (b : Byte) :
    (s.pokeByte a b).pc = s.pc := rfl

@[simp] theorem State.pokeByte_stack (s : State) (a : Nat) (b : Byte) :
    (s.pokeByte a b).stack = s.stack := rfl

@[simp] theorem State.pokeByte_sp (s : State) (a : Nat) (b : Byte) :
    (s.pokeByte a b).sp = s.sp := rfl

@[simp] theorem State.pokeByte_dt (s : State) (a : Nat) (b : Byte) :
    (s.pokeByte a b).dt = s.dt := rfl

@[simp] theorem State.pokeByte_st (s : State) (a : Nat) (b : Byte) :
    (s.pokeByte a b).st = s.st := rfl

@[simp] theorem State.pokeByte_keys (s : State) (a : Nat) (b : Byte) :
    (s.pokeByte a b).keys = s.keys := rfl

@[simp] theorem State.pokeByte_fb (s : State) (a : Nat) (b : Byte) :
    (s.pokeByte a b).fb = s.fb := rfl

@[simp] theorem State.pokeByte_frameDirty (s : State) (a : Nat) (b : Byte) :
    (s.pokeByte a b).frameDirty = s.frameDirty := rfl

@[simp] theorem State.pokeByte_status (s : State) (a : Nat) (b : Byte) :
    (s.pokeByte a b).status = s.status := rfl

@[simp] theorem State.pokeByte_mem (s : State) (a : Nat) (b : Byte) :
    (s.pokeByte a b).mem = Memory.write s.cfg.fontset s.mem a b := rfl

@[simp] theorem State.pokeByte_cfg (s : State) (a : Nat) (b : Byte) :
    (s.pokeByte a b).cfg = s.cfg := rfl

@[simp] theorem State.pokeByte_randomDraws (s : State) (a : Nat) (b : Byte) :
    (s.pokeByte a b).randomDraws = s.randomDraws := rfl

@[simp] theorem State.pokeByte_keyDraws (s : State) (a : Nat) (b : Byte) :
    (s.pokeByte a b).keyDraws = s.keyDraws := rfl

/-! ### `State.advancePc` -/

@[simp] theorem State.advancePc_v (s : State) :
    (s.advancePc).v = s.v := rfl

@[simp] theorem State.advancePc_i (s : State) :
    (s.advancePc).i = s.i := rfl

@[simp] theorem State.advancePc_pc (s : State) :
    (s.advancePc).pc = s.pc + 2 := rfl

@[simp] theorem State.advancePc_stack (s : State) :
    (s.advancePc).stack = s.stack := rfl

@[simp] theorem State.advancePc_sp (s : State) :
    (s.advancePc).sp = s.sp := rfl

@[simp] theorem State.advancePc_dt (s : State) :
    (s.advancePc).dt = s.dt := rfl

@[simp] theorem State.advancePc_st (s : State) :
    (s.advancePc).st = s.st := rfl

@[simp] theorem State.advancePc_keys (s : State) :
    (s.advancePc).keys = s.keys := rfl

@[simp] theorem State.advancePc_fb (s : State) :
    (s.advancePc).fb = s.fb := rfl

@[simp] theorem State.advancePc_frameDirty (s : State) :
    (s.advancePc).frameDirty = s.frameDirty := rfl

@[simp] theorem State.advancePc_status (s : State) :
    (s.advancePc).status = s.status := rfl

@[simp] theorem State.advancePc_mem (s : State) :
    (s.advancePc).mem = s.mem := rfl

@[simp] theorem State.advancePc_cfg (s : State) :
    (s.advancePc).cfg = s.cfg := rfl

@[simp] theorem State.advancePc_randomDraws (s : State) :
    (s.advancePc).randomDraws = s.randomDraws := rfl

@[simp] theorem State.advancePc_keyDraws (s : State) :
    (s.advancePc).keyDraws = s.keyDraws := rfl

/-! ### `State.rewindPc` -/

@[simp] theorem State.rewindPc_v (s : State) :
    (s.rewindPc).v = s.v := rfl

@[simp] theorem State.rewindPc_i (s : State) :
    (s.rewindPc).i = s.i := rfl

@[simp] theorem State.rewindPc_pc (s : State) :
    (s.rewindPc).pc = s.pc - 2 := rfl

@[simp] theorem State.rewindPc_stack (s : State) :
    (s.rewindPc).stack = s.stack := rfl

@[simp] theorem State.rewindPc_sp (s : State) :
    (s.rewindPc).sp = s.sp := rfl

@[simp] theorem State.rewindPc_dt (s : State) :
    (s.rewindPc).dt = s.dt := rfl

@[simp] theorem State.rewindPc_st (s : State) :
    (s.rewindPc).st = s.st := rfl

@[simp] theorem State.rewindPc_keys (s : State) :
    (s.rewindPc).keys = s.keys := rfl

@[simp] theorem State.rewindPc_fb (s : State) :
    (s.rewindPc).fb = s.fb := rfl

@[simp] theorem State.rewindPc_frameDirty (s : State) :
    (s.rewindPc).frameDirty = s.frameDirty := rfl

@[simp] theorem State.rewindPc_status (s : State) :
    (s.rewindPc).status = s.status := rfl

@[simp] theorem State.rewindPc_mem (s : State) :
    (s.rewindPc).mem = s.mem := rfl

@[simp] theorem State.rewindPc_cfg (s : State) :
    (s.rewindPc).cfg = s.cfg := rfl

@[simp] theorem State.rewindPc_randomDraws (s : State) :
    (s.rewindPc).randomDraws = s.randomDraws := rfl

@[simp] theorem State.rewindPc_keyDraws (s : State) :
    (s.rewindPc).keyDraws = s.keyDraws := rfl

/-! ### `State.timerTick` -/

@[simp] theorem State.timerTick_v (s : State) :
    (s.timerTick).v = s.v := rfl

@[simp] theorem State.timerTick_i (s : State) :
    (s.timerTick).i = s.i := rfl

@[simp] theorem State.timerTick_pc (s : State) :
    (s.timerTick).pc = s.pc := rfl

@[simp] theorem State.timerTick_stack (s : State) :
    (s.timerTick).stack = s.stack := rfl

@[simp] theorem State.timerTick_sp (s : State) :
    (s.timerTick).sp = s.sp := rfl

@[simp] theorem State.timerTick_dt (s : State) :
    (s.timerTick).dt = tickDown s.dt := rfl

@[simp] theorem State.timerTick_st (s : State) :
    (s.timerTick).st = tickDown s.st := rfl

@[simp] theorem State.timerTick_keys (s : State) :
    (s.timerTick).keys = s.keys := rfl

@[simp] theorem State.timerTick_fb (s : State) :
    (s.timerTick).fb = s.fb := rfl

@[simp] theorem State.timerTick_frameDirty (s : State) :
    (s.timerTick).frameDirty = s.frameDirty := rfl

@[simp] theorem State.timerTick_status (s : State) :
    (s.timerTick).status = s.status := rfl

@[simp] theorem State.timerTick_mem (s : State) :
    (s.timerTick).mem = s.mem := rfl

@[simp] theorem State.timerTick_cfg (s : State) :
    (s.timerTick).cfg = s.cfg := rfl

@[simp] theorem State.timerTick_randomDraws (s : State) :
    (s.timerTick).randomDraws = s.randomDraws := rfl

@[simp] theorem State.timerTick_keyDraws (s : State) :
    (s.timerTick).keyDraws = s.keyDraws := rfl

/-! ### `State.setKey` -/

@[simp] theorem State.setKey_v (s : State) (k : Key) (b : Bool) :
    (s.setKey k b).v = s.v := rfl

@[simp] theorem State.setKey_i (s : State) (k : Key) (b : Bool) :
    (s.setKey k b).i = s.i := rfl

@[simp] theorem State.setKey_pc (s : State) (k : Key) (b : Bool) :
    (s.setKey k b).pc = s.pc := rfl

@[simp] theorem State.setKey_stack (s : State) (k : Key) (b : Bool) :
    (s.setKey k b).stack = s.stack := rfl

@[simp] theorem State.setKey_sp (s : State) (k : Key) (b : Bool) :
    (s.setKey k b).sp = s.sp := rfl

@[simp] theorem State.setKey_dt (s : State) (k : Key) (b : Bool) :
    (s.setKey k b).dt = s.dt := rfl

@[simp] theorem State.setKey_st (s : State) (k : Key) (b : Bool) :
    (s.setKey k b).st = s.st := rfl

@[simp] theorem State.setKey_keys (s : State) (k : Key) (b : Bool) :
    (s.setKey k b).keys = s.keys.set k.val b := rfl

@[simp] theorem State.setKey_fb (s : State) (k : Key) (b : Bool) :
    (s.setKey k b).fb = s.fb := rfl

@[simp] theorem State.setKey_frameDirty (s : State) (k : Key) (b : Bool) :
    (s.setKey k b).frameDirty = s.frameDirty := rfl

@[simp] theorem State.setKey_status (s : State) (k : Key) (b : Bool) :
    (s.setKey k b).status = s.status := rfl

@[simp] theorem State.setKey_mem (s : State) (k : Key) (b : Bool) :
    (s.setKey k b).mem = s.mem := rfl

@[simp] theorem State.setKey_cfg (s : State) (k : Key) (b : Bool) :
    (s.setKey k b).cfg = s.cfg := rfl

@[simp] theorem State.setKey_randomDraws (s : State) (k : Key) (b : Bool) :
    (s.setKey k b).randomDraws = s.randomDraws := rfl

@[simp] theorem State.setKey_keyDraws (s : State) (k : Key) (b : Bool) :
    (s.setKey k b).keyDraws = s.keyDraws := rfl

/-! ### Registers, one at a time -/

@[simp] theorem State.getV_setV_same (s : State) (x : Reg) (b : Byte) : (s.setV x b).getV x = b := by
  simp [State.getV, State.setV]

theorem State.getV_setV_ne (s : State) (x y : Reg) (b : Byte) (h : y ≠ x) : (s.setV x b).getV y = s.getV y := by
  have h' : x.val ≠ y.val := fun e => h (Fin.ext e.symm)
  simp [State.getV, State.setV, h']

theorem State.getV_setV (s : State) (x y : Reg) (b : Byte) :
    (s.setV x b).getV y = if y = x then b else s.getV y := by
  by_cases h : y = x
  · subst h; simp
  · simp [h, State.getV_setV_ne]

@[simp] theorem State.getV_pokeByte (s : State) (a : Nat) (b : Byte) (x : Reg) :
    (s.pokeByte a b).getV x = s.getV x := rfl

@[simp] theorem State.getV_advancePc (s : State) (x : Reg) : s.advancePc.getV x = s.getV x := rfl

@[simp] theorem State.getV_timerTick (s : State) (x : Reg) : s.timerTick.getV x = s.getV x := rfl

/-! ### Bytes of memory -/

@[simp] theorem State.readByte_setV (s : State) (x : Reg) (b : Byte) (a : Nat) :
    (s.setV x b).readByte a = s.readByte a := rfl

@[simp] theorem State.readByte_advancePc (s : State) (a : Nat) : s.advancePc.readByte a = s.readByte a := rfl

@[simp] theorem State.readByte_timerTick (s : State) (a : Nat) : s.timerTick.readByte a = s.readByte a := rfl

/-! ### Keys, one at a time -/

theorem State.keyDown_setKey (s : State) (k j : Key) (b : Bool) :
    (s.setKey k b).keyDown j = if j = k then b else s.keyDown j := by
  by_cases h : j = k
  · subst h; simp [State.keyDown, State.setKey]
  · have h' : k.val ≠ j.val := fun e => h (Fin.ext e.symm)
    simp [State.keyDown, State.setKey, h, h']

/-! ### The address of the executing instruction -/

theorem State.insnAddr_advancePc (s : State) : s.advancePc.insnAddr = s.pc := by
  simp [State.insnAddr, State.advancePc]

@[simp] theorem State.insnAddr_pokeByte (s : State) (a : Nat) (b : Byte) :
    (s.pokeByte a b).insnAddr = s.insnAddr := rfl

/-! ### The two writes of a flag instruction (R66) -/

theorem writeWithFlag_eq (x : Reg) (flag : Byte) (result : State → Byte) (s : State) :
    writeWithFlag x flag result s = { s with v := (writeWithFlag x flag result s).v } := by
  unfold writeWithFlag; split <;> rfl

theorem writeWithFlag_other (x y : Reg) (flag : Byte) (result : State → Byte) (s : State)
    (hx : y ≠ x) (hf : y ≠ vf) : (writeWithFlag x flag result s).getV y = s.getV y := by
  unfold writeWithFlag; split <;> simp [State.getV_setV, hx, hf]

end Sys2Proof.Machine
end

