-- ==== Sys2Proof/Laws/Memory.lean ====
section
/-! SUPPORT. The laws of memory: read after write, the bytes a write leaves alone, and the canonical form. -/

namespace Sys2Proof.Machine

/-! ### Reading -/

theorem Memory.read_erase_same (font : Fontset) (m : Memory) (a : Nat) :
    Memory.read font (Memory.erase m a) a = Memory.unlisted font a := by
  induction m with
  | nil => rfl
  | cons c m ih =>
    by_cases h : c.1 = a
    · simpa [Memory.erase, h] using ih
    · have h' : ¬ a = c.1 := fun e => h e.symm
      simpa [Memory.erase, h, h', Memory.read] using ih

theorem Memory.read_erase_ne (font : Fontset) (m : Memory) (a b : Nat) (hab : b ≠ a) :
    Memory.read font (Memory.erase m a) b = Memory.read font m b := by
  induction m with
  | nil => rfl
  | cons c m ih =>
    by_cases h : c.1 = a
    · have hb : ¬ b = c.1 := fun e => hab (e.trans h)
      simpa [Memory.erase, h, Memory.read, hab] using ih
    · by_cases hb : b = c.1
      · simp [Memory.erase, h, Memory.read, hb]
      · simpa [Memory.erase, h, Memory.read, hb] using ih

theorem Memory.read_insert_ne (font : Fontset) (m : Memory) (a b : Nat) (w : Byte) (hab : b ≠ a) :
    Memory.read font (Memory.insert m a w) b = Memory.read font m b := by
  induction m with
  | nil => simp [Memory.insert, Memory.read, hab]
  | cons c m ih =>
    by_cases h : a < c.1
    · simp [Memory.insert, h, Memory.read, hab]
    · simp [Memory.insert, h, Memory.read, ih]

theorem Memory.read_insert_erase_same (font : Fontset) (m : Memory) (a : Nat) (w : Byte) :
    Memory.read font (Memory.insert (Memory.erase m a) a w) a = w := by
  induction m with
  | nil => simp [Memory.erase, Memory.insert, Memory.read]
  | cons c m ih =>
    by_cases h : c.1 = a
    · simpa [Memory.erase, h] using ih
    · have h' : ¬ a = c.1 := fun e => h e.symm
      by_cases hlt : a < c.1
      · simp [Memory.erase, h, Memory.insert, hlt, Memory.read]
      · simpa [Memory.erase, h, h', Memory.insert, hlt, Memory.read] using ih

theorem Memory.read_write_same (font : Fontset) (m : Memory) (a : Nat) (w : Byte) :
    Memory.read font (Memory.write font m a w) a = w := by
  unfold Memory.write
  split
  · next h => rw [Memory.read_erase_same, h]
  · exact Memory.read_insert_erase_same font m a w

theorem Memory.read_write_ne (font : Fontset) (m : Memory) (a b : Nat) (w : Byte) (hab : b ≠ a) :
    Memory.read font (Memory.write font m a w) b = Memory.read font m b := by
  unfold Memory.write
  split
  · exact Memory.read_erase_ne font m a b hab
  · rw [Memory.read_insert_ne _ _ _ _ _ hab, Memory.read_erase_ne _ _ _ _ hab]

theorem Memory.read_writeList (font : Fontset) (bs : List Byte) (m : Memory) (a b : Nat) :
    Memory.read font (Memory.writeList font m a bs) b =
      if h : a ≤ b ∧ b < a + bs.length then bs[b - a]'(by omega) else Memory.read font m b := by
  induction bs generalizing m a with
  | nil => simp [Memory.writeList]
  | cons w bs ih =>
    rw [Memory.writeList, ih]
    rcases Nat.lt_trichotomy b a with h | h | h
    · rw [dif_neg (by omega), dif_neg (by omega), Memory.read_write_ne _ _ _ _ _ (by omega)]
    · subst h
      rw [dif_neg (by omega), dif_pos (by simp), Memory.read_write_same]; simp
    · by_cases hb : b < a + (w :: bs).length
      · rw [dif_pos (by simp at hb; omega), dif_pos (by omega)]
        have e : b - a = (b - (a + 1)) + 1 := by omega
        simp [e]
      · rw [dif_neg (by simp at hb; omega), dif_neg (by omega), Memory.read_write_ne _ _ _ _ _ (by omega)]

/-! ### The canonical form -/

theorem Memory.wf_nil (font : Fontset) : Memory.wf font [] := by simp [Memory.wf]

theorem Memory.erase_wf (font : Fontset) (m : Memory) (a : Nat) (h : Memory.wf font m) :
    Memory.wf font (Memory.erase m a) :=
  ⟨h.1.filter _, fun c hc => h.2 c (List.mem_of_mem_filter hc)⟩

theorem Memory.mem_insert (m : Memory) (a : Nat) (w : Byte) (c : Host.Cell) :
    c ∈ Memory.insert m a w ↔ c = (a, w) ∨ c ∈ m := by
  induction m with
  | nil => simp [Memory.insert]
  | cons d m ih =>
    by_cases h : a < d.1
    · simp [Memory.insert, h]
    · simp [Memory.insert, h, ih]; tauto

theorem Memory.insert_pairwise (m : Memory) (a : Nat) (w : Byte)
    (h : m.Pairwise (fun c d => c.1 < d.1)) (hne : ∀ c ∈ m, c.1 ≠ a) :
    (Memory.insert m a w).Pairwise (fun c d => c.1 < d.1) := by
  induction m with
  | nil => simp [Memory.insert]
  | cons d m ih =>
    rw [List.pairwise_cons] at h
    by_cases hlt : a < d.1
    · rw [Memory.insert, if_pos hlt, List.pairwise_cons, List.pairwise_cons]
      refine ⟨fun c hc => ?_, h⟩
      rcases List.mem_cons.1 hc with rfl | hc
      · exact hlt
      · exact Nat.lt_trans hlt (h.1 c hc)
    · rw [Memory.insert, if_neg hlt, List.pairwise_cons]
      refine ⟨fun c hc => ?_, ih h.2 (fun c hc => hne c (List.mem_cons_of_mem _ hc))⟩
      have hd : d.1 ≠ a := hne d (by simp)
      rcases (Memory.mem_insert m a w c).1 hc with rfl | hc
      · show d.1 < a; omega
      · exact h.1 c hc

theorem Memory.insert_wf (font : Fontset) (m : Memory) (a : Nat) (w : Byte) (h : Memory.wf font m)
    (hne : ∀ c ∈ m, c.1 ≠ a) (ha : a < 4096) (hw : w ≠ Memory.unlisted font a) :
    Memory.wf font (Memory.insert m a w) := by
  refine ⟨Memory.insert_pairwise m a w h.1 hne, fun c hc => ?_⟩
  rcases (Memory.mem_insert m a w c).1 hc with rfl | hc
  · exact ⟨ha, hw⟩
  · exact h.2 c hc

/-- Every write inside the address space keeps the canonical form. -/
theorem Memory.write_wf (font : Fontset) (m : Memory) (a : Nat) (w : Byte) (h : Memory.wf font m)
    (ha : a < 4096) : Memory.wf font (Memory.write font m a w) := by
  unfold Memory.write
  split
  · exact Memory.erase_wf font m a h
  · next hw =>
    refine Memory.insert_wf font _ a w (Memory.erase_wf font m a h) (fun c hc => ?_) ha hw
    simpa [Memory.erase] using (List.mem_filter.1 hc).2

theorem Memory.writeList_wf (font : Fontset) (bs : List Byte) (m : Memory) (a : Nat) (h : Memory.wf font m)
    (ha : a + bs.length ≤ 4096) : Memory.wf font (Memory.writeList font m a bs) := by
  induction bs generalizing m a with
  | nil => exact h
  | cons w bs ih =>
    simp at ha
    exact ih _ _ (Memory.write_wf font m a w h (by omega)) (by omega)

/-! ### Through the state -/

@[simp] theorem State.readByte_pokeByte_same (s : State) (a : Nat) (b : Byte) :
    (s.pokeByte a b).readByte a = b := Memory.read_write_same _ _ _ _

theorem State.readByte_pokeByte_ne (s : State) (a c : Nat) (b : Byte) (h : c ≠ a) :
    (s.pokeByte a b).readByte c = s.readByte c := Memory.read_write_ne _ _ _ _ _ h

/-- The bytes a state reads after a block of writes. -/
theorem State.readByte_writeList (s : State) (bs : List Byte) (a c : Nat) :
    State.readByte { s with mem := Memory.writeList s.cfg.fontset s.mem a bs } c =
      if h : a ≤ c ∧ c < a + bs.length then bs[c - a]'(by omega) else s.readByte c :=
  Memory.read_writeList _ _ _ _ _

end Sys2Proof.Machine
end

