-- ==== Sys2Proof/Laws/Ops.lean ====
section
/-! SUPPORT. What each shared operation can do, said once: the checked accesses, the block transfers, the call
stack, the keys, the pixels, the fetch and the end of a step. -/

namespace Sys2Proof.Machine

/-! ### Checked accesses (R29, R30) -/

theorem memRead_ok (s : State) (a : Nat) (h : a ≤ 4095) : memRead s a = .ok (s.readByte a) := by
  simp [memRead, Nat.not_lt.2 h]

theorem memRead_error (s : State) (a : Nat) (h : 4095 < a) :
    memRead s a = .error (.memOutOfRange a s.insnAddr) := by
  simp [memRead, h]

theorem memWrite_ok (s : State) (a : Nat) (b : Byte) (h : a ≤ 4095) (hf : 0x50 ≤ a) :
    memWrite s a b = .ok (s.pokeByte a b) := by
  have : ¬ a ≤ 79 := by omega
  simp [memWrite, Nat.not_lt.2 h, this]

theorem memWrite_cases (s : State) (a : Nat) (b : Byte) :
    (4095 < a ∧ memWrite s a b = .error (.memOutOfRange a s.insnAddr)) ∨
    (a ≤ 0x4F ∧ memWrite s a b = .error (.fontWrite a s.insnAddr)) ∨
    (0x50 ≤ a ∧ a ≤ 4095 ∧ memWrite s a b = .ok (s.pokeByte a b)) := by
  unfold memWrite
  by_cases h : 4095 < a
  · simp [h]
  · by_cases hf : a ≤ 79
    · simp [h, hf]
    · simp [h, hf]; omega

/-! ### Block transfers (R33, R95, R97) -/

theorem loadBytes_ok (s : State) (n a : Nat) (h : n = 0 ∨ a + n ≤ 4096) :
    loadBytes s a n = .ok ((List.range n).map (fun k => s.readByte (a + k))) := by
  induction n generalizing a with
  | zero => rfl
  | succ n ih =>
    have ha : a ≤ 4095 := by omega
    rw [loadBytes, memRead_ok s a ha, ih (a + 1) (by omega)]
    simp [List.range_succ_eq_map, Function.comp_def, Nat.add_assoc, Nat.add_comm 1]

/-- A block read that fails reports the first address past the end, whatever the first one inside. -/
theorem loadBytes_error (s : State) (n a : Nat) (h : 4096 < a + n) (hn : 0 < n) :
    loadBytes s a n = .error (.memOutOfRange (max a 4096) s.insnAddr) := by
  induction n generalizing a with
  | zero => omega
  | succ n ih =>
    by_cases ha : 4095 < a
    · rw [loadBytes, memRead_error s a ha]
      rw [Nat.max_eq_left (by omega)]
    · have ha' : a ≤ 4095 := by omega
      rw [loadBytes, memRead_ok s a ha', ih (a + 1) (by omega) (by omega)]
      rw [Nat.max_eq_right (by omega), Nat.max_eq_right (by omega)]

/-- A block read answers its bytes, or a range fault at an address above 4095. -/
theorem loadBytes_cases (s : State) (n a : Nat) :
    (∃ bs, loadBytes s a n = .ok bs ∧ bs.length = n) ∨
    (∃ b, 4095 < b ∧ a ≤ b ∧ b < a + n ∧ loadBytes s a n = .error (.memOutOfRange b s.insnAddr)) := by
  by_cases h : n = 0 ∨ a + n ≤ 4096
  · exact .inl ⟨_, loadBytes_ok s n a h, by simp⟩
  · exact .inr ⟨max a 4096, by omega, by omega, by omega, loadBytes_error s n a (by omega) (by omega)⟩

/-- A block write that fits, above the font, is the plain list of writes. -/
theorem storeBytes_ok (s : State) (bs : List Byte) (a : Nat) (h : a + bs.length ≤ 4096) (hf : 0x50 ≤ a) :
    storeBytes s a bs = .ok { s with mem := Memory.writeList s.cfg.fontset s.mem a bs } := by
  induction bs generalizing s a with
  | nil => rfl
  | cons b bs ih =>
    simp at h
    rw [storeBytes, memWrite_ok s a b (by omega) hf]
    show storeBytes (s.pokeByte a b) (a + 1) bs = _
    rw [ih (s.pokeByte a b) (a + 1) (by omega) (by omega)]
    rfl

/-- A block write that starts in the font faults at its first byte. -/
theorem storeBytes_font_error (s : State) (bs : List Byte) (a : Nat) (hb : bs ≠ []) (hf : a ≤ 0x4F) :
    storeBytes s a bs = .error (.fontWrite a s.insnAddr) := by
  cases bs with
  | nil => exact absurd rfl hb
  | cons b bs =>
    rcases memWrite_cases s a b with ⟨h, _⟩ | ⟨_, e⟩ | ⟨h, _, _⟩
    · omega
    · rw [storeBytes, e]
    · omega

/-- A block write above the font that passes the end reports the first address past it. -/
theorem storeBytes_range_error (s : State) (bs : List Byte) (a : Nat) (hb : bs ≠ []) (hf : 0x50 ≤ a)
    (h : 4096 < a + bs.length) : storeBytes s a bs = .error (.memOutOfRange (max a 4096) s.insnAddr) := by
  induction bs generalizing s a with
  | nil => exact absurd rfl hb
  | cons b bs ih =>
    rcases memWrite_cases s a b with ⟨h1, e⟩ | ⟨h1, _⟩ | ⟨_, h2, e⟩
    · rw [storeBytes, e, Nat.max_eq_left (by omega)]
    · omega
    · simp at h
      have hne : bs ≠ [] := by rintro rfl; simp at h; omega
      rw [storeBytes, e]
      show storeBytes (s.pokeByte a b) (a + 1) bs = _
      rw [ih (s.pokeByte a b) (a + 1) hne (by omega) (by omega)]
      rw [Nat.max_eq_right (by omega), Nat.max_eq_right (by omega)]; rfl

/-- A block write either stores its bytes and changes only memory, or faults with nothing stored: at its first
byte if that is in the font, else at the first address past 4095. -/
theorem storeBytes_cases (s : State) (bs : List Byte) (a : Nat) :
    (storeBytes s a bs = .ok { s with mem := Memory.writeList s.cfg.fontset s.mem a bs } ∧
      (bs = [] ∨ (0x50 ≤ a ∧ a + bs.length ≤ 4096))) ∨
    (bs ≠ [] ∧ a ≤ 0x4F ∧ storeBytes s a bs = .error (.fontWrite a s.insnAddr)) ∨
    (bs ≠ [] ∧ 0x50 ≤ a ∧ 4096 < a + bs.length ∧
      storeBytes s a bs = .error (.memOutOfRange (max a 4096) s.insnAddr)) := by
  by_cases hb : bs = []
  · subst hb; exact .inl ⟨rfl, .inl rfl⟩
  · by_cases hf : a ≤ 0x4F
    · exact .inr (.inl ⟨hb, hf, storeBytes_font_error s bs a hb hf⟩)
    · by_cases h : a + bs.length ≤ 4096
      · exact .inl ⟨storeBytes_ok s bs a h (by omega), .inr ⟨by omega, h⟩⟩
      · exact .inr (.inr ⟨hb, by omega, by omega, storeBytes_range_error s bs a hb (by omega) (by omega)⟩)

/-! ### Taking a fault (R94, R95) -/

theorem orFault_ok (s t : State) : orFault (.ok t) s = .next t := rfl

theorem orFault_error (s : State) (f : Fault) : orFault (.error f) s = takeFault f s := rfl

/-- A fault that names the executing instruction, taken after the advance of pc, leaves the state of before the
step but for the status. -/
theorem takeFault_advancePc (f : Fault) (s : State) (h : f.faultPc = s.advancePc.insnAddr) :
    takeFault f s.advancePc = .next { s with status := .faulted f } := by
  rw [State.insnAddr_advancePc] at h
  simp [takeFault, State.advancePc, h]

/-! ### Call stack (R58, R60) -/

theorem pushReturn_ok (s : State) (a : Word) (h : s.sp.val < 16) :
    pushReturn s a = .ok { s with stack := s.stack.set s.sp.val a, sp := ⟨s.sp.val + 1, by omega⟩ } := by
  simp [pushReturn, h]

theorem pushReturn_error (s : State) (a : Word) (h : s.sp = 16) :
    pushReturn s a = .error (.stackOverflow s.insnAddr) := by
  simp [pushReturn, h]

theorem popReturn_ok (s : State) (h : 0 < s.sp.val) :
    popReturn s = .ok { s with pc := s.stack[s.sp.val - 1], sp := ⟨s.sp.val - 1, by omega⟩ } := by
  simp [popReturn, h]

theorem popReturn_error (s : State) (h : s.sp = 0) : popReturn s = .error (.stackUnderflow s.insnAddr) := by
  simp [popReturn, h]

/-! ### Skips (40_control_flow.md §2) -/

theorem State.skipIf_eq (s : State) (c : Bool) :
    s.skipIf c = { s with pc := if c then s.pc + 2 else s.pc } := by
  cases c <;> rfl

/-! ### Timers (R102) -/

theorem tickDown_toNat (t : Byte) : (tickDown t).toNat = t.toNat - 1 := by
  unfold tickDown
  split
  · next h => simp [h]
  · next h =>
    have h0 : t.toNat ≠ 0 := fun e => h (BitVec.eq_of_toNat_eq (by simpa using e))
    have hlt := t.isLt
    rw [BitVec.toNat_sub]
    simp
    omega

/-! ### Keypad (R87 to R90) -/

theorem keyOf_some (b : Byte) (h : b.toNat < 16) : keyOf b = some ⟨b.toNat, h⟩ := by simp [keyOf, h]

theorem keyOf_none (b : Byte) (h : 15 < b.toNat) : keyOf b = none := by
  simp [keyOf]; omega

theorem State.mem_pressedKeys (s : State) (k : Key) : k ∈ s.pressedKeys ↔ s.keyDown k = true := by
  simp [State.pressedKeys]

theorem drawKey_mem (k : Key) (ks : List Key) (s : State) : (drawKey k ks s).1 ∈ k :: ks := by
  cases ks with
  | nil => simp [drawKey]
  | cons j js =>
    have hlt : Config.keySelectDraw s.keyDraws % ((j :: js).length + 1) < (k :: j :: js).length :=
      Nat.mod_lt _ (by simp)
    simp only [drawKey]
    rw [List.getD_eq_getElem _ _ hlt]
    exact List.getElem_mem hlt

theorem drawKey_state (k : Key) (ks : List Key) (s : State) :
    (drawKey k ks s).2 = { s with keyDraws := s.keyDraws + if ks = [] then 0 else 1 } := by
  cases ks <;> simp [drawKey]

/-! ### Pixels (R18, R86) -/

theorem Framebuffer.pixel_flip_same (fb : Framebuffer) (r : Fin 32) (c : Fin 64) :
    (fb.flip r c).pixel r c = !fb.pixel r c := by
  simp [Framebuffer.flip, Framebuffer.pixel]

theorem Framebuffer.pixel_flip_ne (fb : Framebuffer) (r q : Fin 32) (c d : Fin 64) (h : ¬ (q = r ∧ d = c)) :
    (fb.flip r c).pixel q d = fb.pixel q d := by
  by_cases hr : q = r
  · subst hr
    have hd : ¬ c.val = d.val := fun e => h ⟨rfl, Fin.ext e.symm⟩
    simp [Framebuffer.flip, Framebuffer.pixel, hd]
  · have hr' : ¬ r.val = q.val := fun e => hr (Fin.ext e.symm)
    simp [Framebuffer.flip, Framebuffer.pixel, hr']

theorem Framebuffer.pixel_clear (r : Fin 32) (c : Fin 64) : Framebuffer.clear.pixel r c = false := by
  simp [Framebuffer.clear, Framebuffer.pixel]

theorem Framebuffer.ext_pixel (fb gb : Framebuffer) (h : ∀ r c, fb.pixel r c = gb.pixel r c) : fb = gb := by
  apply Vector.ext
  intro i hi
  apply Vector.ext
  intro j hj
  exact h ⟨i, hi⟩ ⟨j, hj⟩

/-! ### Registers written in a block (R84) -/

theorem writeRegs_getElem (bs : List Byte) (v : Vector Byte 16) (k j : Nat) (hj : j < 16) :
    (writeRegs v k bs)[j] = if h : k ≤ j ∧ j < k + bs.length then bs[j - k]'(by omega) else v[j] := by
  induction bs generalizing v k with
  | nil => simp [writeRegs]
  | cons b bs ih =>
    rw [writeRegs, ih]
    rcases Nat.lt_trichotomy j k with h | h | h
    · rw [dif_neg (by omega), dif_neg (by omega), Vector.getElem_setIfInBounds, if_neg (by omega)]
    · subst h
      rw [dif_neg (by omega), dif_pos (by simp), Vector.getElem_setIfInBounds, if_pos rfl]; simp
    · by_cases hb : j < k + (b :: bs).length
      · rw [dif_pos (by simp at hb; omega), dif_pos (by omega)]
        have e : j - k = (j - (k + 1)) + 1 := by omega
        simp [e]
      · rw [dif_neg (by simp at hb; omega), dif_neg (by omega), Vector.getElem_setIfInBounds,
          if_neg (by omega)]

/-! ### The fetch and the end of a step (R39, R54, R57) -/

theorem fetch_ok (s : State) (h : s.pc.toNat ≤ 4094) :
    fetch s = .ok (wordOfBytes (s.readByte s.pc.toNat) (s.readByte (s.pc.toNat + 1))) := by
  simp [fetch, Nat.not_lt.2 h]

theorem fetch_error (s : State) (h : 4094 < s.pc.toNat) : fetch s = .error (.fetchOutOfRange s.pc) := by
  simp [fetch, h]

theorem endStep_faulted (s : State) (f : Fault) (h : s.status = .faulted f) : endStep s = s := by
  simp [endStep, h]

theorem endStep_live (s : State) (h : s.status.isFaulted = false) :
    endStep s =
      { s with
        dt := if s.cfg.timerMode = .perStep then tickDown s.dt else s.dt
        st := if s.cfg.timerMode = .perStep then tickDown s.st else s.st
        status := .running } := by
  unfold endStep
  cases hs : s.status with
  | faulted f => simp [hs, Status.isFaulted] at h
  | ready => cases hm : s.cfg.timerMode <;> simp [State.timerTick]
  | running => cases hm : s.cfg.timerMode <;> simp [State.timerTick]

end Sys2Proof.Machine
end

