-- ==== Sys2Proof/Laws/Operands.lean ====
section
/-! SUPPORT. The values of the operand forms and flag computations, as numbers. -/

namespace Sys2Proof.Machine

/-! ### Operand forms -/

theorem zextAddr_toNat (nnn : BitVec 12) : (zextAddr nnn).toNat = nnn.toNat :=
  BitVec.toNat_setWidth_of_le (by decide)

theorem zextByte_toNat (b : Byte) : (zextByte b).toNat = b.toNat :=
  BitVec.toNat_setWidth_of_le (by decide)

theorem glyphAddr_toNat (b : Byte) : (glyphAddr b).toNat = b.toNat * 5 := by
  have h := b.isLt
  rw [glyphAddr, BitVec.toNat_ofNat]; omega

theorem decimalDigits_length (b : Byte) : (decimalDigits b).length = 3 := rfl

theorem State.regBlock_length (s : State) (x : Reg) : (s.regBlock x).length = x.val + 1 := by
  have h := x.isLt
  simp [State.regBlock]

theorem State.regBlock_getElem (s : State) (x k : Reg) (h : k.val < (s.regBlock x).length) :
    (s.regBlock x)[k.val] = s.getV k := by
  simp [State.regBlock, State.getV]

/-! ### Flags -/

theorem b2u_true : b2u true = 1 := rfl

theorem b2u_false : b2u false = 0 := rfl

theorem lowBit_toNat (a : Byte) : (lowBit a).toNat = a.toNat % 2 := by
  have h : ∀ a : BitVec 8, (a &&& 0x01#8).toNat = a.toNat % 2 := by decide
  exact h a

theorem highBit_toNat (a : Byte) : (highBit a).toNat = a.toNat / 128 := by
  have h : ∀ a : BitVec 8, ((a >>> 7) &&& 0x01#8).toNat = a.toNat / 128 := by decide
  exact h a

/-- The difference modulo 256, as a number that does not go below zero. -/
theorem byte_sub_eq (a b : Byte) : a - b = BitVec.ofNat 8 (256 + a.toNat - b.toNat) := by
  apply BitVec.eq_of_toNat_eq
  have ha := a.isLt
  have hb := b.isLt
  rw [BitVec.toNat_sub, BitVec.toNat_ofNat]
  congr 1; omega

theorem byte_add_eq (a b : Byte) : a + b = BitVec.ofNat 8 (a.toNat + b.toNat) := by
  apply BitVec.eq_of_toNat_eq
  rw [BitVec.toNat_add, BitVec.toNat_ofNat]

end Sys2Proof.Machine
end

