-- ==== Sys2Proof/Laws/PerInstr.lean ====
section
/-! SUPPORT. The per-instruction family FixedBits: the encoding of an instruction carries the fixed bits of its
row of spec/opcode_table.json. -/

namespace Sys2Proof.Laws.FixedBits

/-- The word of `i` is one of its row's. -/
def Statement (i : Instr) : Prop := (opcodeRow i).admits (encode i) = true

/-- A masked word equal to the row's value is the row's. -/
theorem admits_of_eq {r : OpcodeRow} {op : Word} (h : op &&& r.mask = r.value) : r.admits op = true := by
  simp [OpcodeRow.admits, h]

theorem cls : Statement (.cls) := rfl

theorem ret : Statement (.ret) := rfl

theorem jp (nnn : BitVec 12) : Statement (.jp nnn) := admits_of_eq (packNnn_and_mask_g _ _)

theorem call (nnn : BitVec 12) : Statement (.call nnn) := admits_of_eq (packNnn_and_mask_g _ _)

theorem seImm (x : Reg) (kk : Byte) : Statement (.seImm x kk) := admits_of_eq (packXkk_and_mask_g _ _ _)

theorem sneImm (x : Reg) (kk : Byte) : Statement (.sneImm x kk) := admits_of_eq (packXkk_and_mask_g _ _ _)

theorem seReg (x y : Reg) : Statement (.seReg x y) := admits_of_eq (packXyn_and_mask_g_n _ _ _ _)

theorem ldImm (x : Reg) (kk : Byte) : Statement (.ldImm x kk) := admits_of_eq (packXkk_and_mask_g _ _ _)

theorem addImm (x : Reg) (kk : Byte) : Statement (.addImm x kk) := admits_of_eq (packXkk_and_mask_g _ _ _)

theorem ldReg (x y : Reg) : Statement (.ldReg x y) := admits_of_eq (packXyn_and_mask_g_n _ _ _ _)

theorem orReg (x y : Reg) : Statement (.orReg x y) := admits_of_eq (packXyn_and_mask_g_n _ _ _ _)

theorem andReg (x y : Reg) : Statement (.andReg x y) := admits_of_eq (packXyn_and_mask_g_n _ _ _ _)

theorem xorReg (x y : Reg) : Statement (.xorReg x y) := admits_of_eq (packXyn_and_mask_g_n _ _ _ _)

theorem addReg (x y : Reg) : Statement (.addReg x y) := admits_of_eq (packXyn_and_mask_g_n _ _ _ _)

theorem sub (x y : Reg) : Statement (.sub x y) := admits_of_eq (packXyn_and_mask_g_n _ _ _ _)

theorem shr (x y : Reg) : Statement (.shr x y) := admits_of_eq (packXyn_and_mask_g_n _ _ _ _)

theorem subn (x y : Reg) : Statement (.subn x y) := admits_of_eq (packXyn_and_mask_g_n _ _ _ _)

theorem shl (x y : Reg) : Statement (.shl x y) := admits_of_eq (packXyn_and_mask_g_n _ _ _ _)

theorem sneReg (x y : Reg) : Statement (.sneReg x y) := admits_of_eq (packXyn_and_mask_g_n _ _ _ _)

theorem ldI (nnn : BitVec 12) : Statement (.ldI nnn) := admits_of_eq (packNnn_and_mask_g _ _)

theorem jpV0 (nnn : BitVec 12) : Statement (.jpV0 nnn) := admits_of_eq (packNnn_and_mask_g _ _)

theorem rnd (x : Reg) (kk : Byte) : Statement (.rnd x kk) := admits_of_eq (packXkk_and_mask_g _ _ _)

theorem drw (x y : Reg) (n : Nat) : Statement (.drw x y n) := admits_of_eq (packXyn_and_mask_g _ _ _ _)

theorem skp (x : Reg) : Statement (.skp x) := admits_of_eq (packXkk_and_mask_g_kk _ _ _)

theorem sknp (x : Reg) : Statement (.sknp x) := admits_of_eq (packXkk_and_mask_g_kk _ _ _)

theorem ldVxDt (x : Reg) : Statement (.ldVxDt x) := admits_of_eq (packXkk_and_mask_g_kk _ _ _)

theorem ldVxK (x : Reg) : Statement (.ldVxK x) := admits_of_eq (packXkk_and_mask_g_kk _ _ _)

theorem ldDtVx (x : Reg) : Statement (.ldDtVx x) := admits_of_eq (packXkk_and_mask_g_kk _ _ _)

theorem ldStVx (x : Reg) : Statement (.ldStVx x) := admits_of_eq (packXkk_and_mask_g_kk _ _ _)

theorem addIVx (x : Reg) : Statement (.addIVx x) := admits_of_eq (packXkk_and_mask_g_kk _ _ _)

theorem ldFVx (x : Reg) : Statement (.ldFVx x) := admits_of_eq (packXkk_and_mask_g_kk _ _ _)

theorem ldBVx (x : Reg) : Statement (.ldBVx x) := admits_of_eq (packXkk_and_mask_g_kk _ _ _)

theorem ldIVx (x : Reg) : Statement (.ldIVx x) := admits_of_eq (packXkk_and_mask_g_kk _ _ _)

theorem ldVxI (x : Reg) : Statement (.ldVxI x) := admits_of_eq (packXkk_and_mask_g_kk _ _ _)

end Sys2Proof.Laws.FixedBits
end

