-- ==== Sys2Proof/Laws/Sprite.lean ====
section
/-! SUPPORT. What drawing a sprite does to each pixel and when it collides, said once for the loops of R86. -/

namespace Sys2Proof.Machine

/-! ### Bits and positions -/

/-- The spec's mask `0x80 >> c` picks the bit counted from the left. -/
theorem spriteBit_eq (b : Byte) (c : Nat) (hc : c < 8) : spriteBit b c = b.getLsbD (7 - c) := by
  have h : ∀ k : Fin 8, ∀ b : BitVec 8, ((b &&& (0x80#8 >>> k.val)) != 0) = b.getLsbD (7 - k.val) := by decide
  exact h ⟨c, hc⟩ b

/-- Two offsets less than `m` apart stay apart modulo `m`. -/
theorem ofNat_add_ne (m a j k : Nat) [NeZero m] (hjk : j < k) (hk : k < j + m) :
    Fin.ofNat m (a + j) ≠ Fin.ofNat m (a + k) := by
  intro h
  have h' : (a + j) % m = (a + k) % m := congrArg Fin.val h
  have h2 := Nat.ModEq.add_left_cancel' a (show a + j ≡ a + k [MOD m] from h')
  have h3 := (Nat.modEq_iff_dvd' (Nat.le_of_lt hjk)).1 h2
  have h4 := Nat.le_of_dvd (by omega) h3
  omega

theorem Canvas.plot_pixel (d : Canvas) (row col : Nat) (q : Fin 32) (p : Fin 64) :
    (d.plot row col).fb.pixel q p ≠ d.fb.pixel q p ↔ q = Fin.ofNat 32 row ∧ p = Fin.ofNat 64 col := by
  by_cases h : q = Fin.ofNat 32 row ∧ p = Fin.ofNat 64 col
  · obtain ⟨rfl, rfl⟩ := h
    simp [Canvas.plot, Framebuffer.pixel_flip_same]
  · exact iff_of_false (not_not.2 (Framebuffer.pixel_flip_ne _ _ _ _ _ h)) h

/-- A row of a sprite flips exactly the pixels its set bits from `c` on fall on. -/
theorem Canvas.drawRow_pixel (b : Byte) (row cx c fuel : Nat) (d : Canvas) (q : Fin 32) (p : Fin 64)
    (h : c + fuel ≤ 8) :
    (Canvas.drawRow b row cx c fuel d).fb.pixel q p ≠ d.fb.pixel q p ↔
      q = Fin.ofNat 32 row ∧ ∃ k, c ≤ k ∧ k < c + fuel ∧ spriteBit b k = true ∧ p = Fin.ofNat 64 (cx + k) := by
  induction fuel generalizing c d with
  | zero =>
    simp only [Canvas.drawRow, ne_eq, not_true, false_iff]
    rintro ⟨_, k, h1, h2, _⟩; omega
  | succ fuel ih =>
    rw [Canvas.drawRow]
    have ih' := ih (c + 1) (if spriteBit b c then d.plot row (cx + c) else d) (by omega)
    by_cases hb : spriteBit b c = true
    · simp only [hb, if_true] at ih' ⊢
      have hp := Canvas.plot_pixel d row (cx + c) q p
      have hex : (∃ k, c ≤ k ∧ k < c + (fuel + 1) ∧ spriteBit b k = true ∧ p = Fin.ofNat 64 (cx + k)) ↔
          p = Fin.ofNat 64 (cx + c) ∨
            ∃ k, c + 1 ≤ k ∧ k < c + 1 + fuel ∧ spriteBit b k = true ∧ p = Fin.ofNat 64 (cx + k) := by
        constructor
        · rintro ⟨k, h1, h2, h3, h4⟩
          by_cases e : k = c
          · exact .inl (e ▸ h4)
          · exact .inr ⟨k, by omega, by omega, h3, h4⟩
        · rintro (h4 | ⟨k, h1, h2, h3, h4⟩)
          · exact ⟨c, by omega, by omega, hb, h4⟩
          · exact ⟨k, by omega, by omega, h3, h4⟩
      have hdis : ¬ (p = Fin.ofNat 64 (cx + c) ∧
          ∃ k, c + 1 ≤ k ∧ k < c + 1 + fuel ∧ spriteBit b k = true ∧ p = Fin.ofNat 64 (cx + k)) := by
        rintro ⟨e, k, h1, h2, _, h4⟩
        exact ofNat_add_ne 64 cx c k (by omega) (by omega) (e.symm.trans h4)
      rw [hex]
      generalize (Canvas.drawRow b row cx (c + 1) fuel (d.plot row (cx + c))).fb.pixel q p = X at ih' ⊢
      generalize (d.plot row (cx + c)).fb.pixel q p = Y at ih' hp
      generalize d.fb.pixel q p = Z at hp ⊢
      revert ih' hp hdis
      generalize (∃ k, c + 1 ≤ k ∧ k < c + 1 + fuel ∧ spriteBit b k = true ∧ p = Fin.ofNat 64 (cx + k)) = E
      generalize (p = Fin.ofNat 64 (cx + c)) = P
      generalize (q = Fin.ofNat 32 row) = Q
      cases X <;> cases Y <;> cases Z <;> simp <;> tauto
    · have hb' : spriteBit b c = false := by simpa using hb
      simp only [hb', Bool.false_eq_true, if_false] at ih' ⊢
      rw [ih']
      refine and_congr_right fun _ => ⟨?_, ?_⟩
      · rintro ⟨k, h1, h2, h3, h4⟩; exact ⟨k, by omega, by omega, h3, h4⟩
      · rintro ⟨k, h1, h2, h3, h4⟩
        have : k ≠ c := by rintro rfl; exact hb h3
        exact ⟨k, by omega, by omega, h3, h4⟩

/-- A row of a sprite collides exactly when a set bit from `c` on falls on a pixel that was lit before the row. -/
theorem Canvas.drawRow_collide (b : Byte) (row cx c fuel : Nat) (d : Canvas) (h : c + fuel ≤ 8) :
    (Canvas.drawRow b row cx c fuel d).collide = true ↔
      d.collide = true ∨ ∃ k, c ≤ k ∧ k < c + fuel ∧ spriteBit b k = true ∧
        d.fb.pixel (Fin.ofNat 32 row) (Fin.ofNat 64 (cx + k)) = true := by
  induction fuel generalizing c d with
  | zero =>
    simp only [Canvas.drawRow]
    refine ⟨.inl, ?_⟩
    rintro (h | ⟨k, h1, h2, _⟩)
    · exact h
    · omega
  | succ fuel ih =>
    rw [Canvas.drawRow]
    rw [ih (c + 1) _ (by omega)]
    by_cases hb : spriteBit b c = true
    · simp only [hb, if_true]
      have hk : ∀ k, c + 1 ≤ k → k < c + 1 + fuel →
          (d.plot row (cx + c)).fb.pixel (Fin.ofNat 32 row) (Fin.ofNat 64 (cx + k)) =
            d.fb.pixel (Fin.ofNat 32 row) (Fin.ofNat 64 (cx + k)) := by
        intro k h1 h2
        have := (Canvas.plot_pixel d row (cx + c) (Fin.ofNat 32 row) (Fin.ofNat 64 (cx + k))).not
        simp only [ne_eq, not_not] at this
        rw [this]
        rintro ⟨_, e⟩
        exact ofNat_add_ne 64 cx c k (by omega) (by omega) e.symm
      constructor
      · rintro (h1 | ⟨k, h1, h2, h3, h4⟩)
        · rcases (Bool.or_eq_true _ _ ▸ h1 : _ ∨ _) with h1 | h1
          · exact .inl h1
          · exact .inr ⟨c, by omega, by omega, hb, h1⟩
        · exact .inr ⟨k, by omega, by omega, h3, (hk k h1 h2) ▸ h4⟩
      · rintro (h1 | ⟨k, h1, h2, h3, h4⟩)
        · exact .inl (by simp [Canvas.plot, h1])
        · by_cases e : k = c
          · subst e; exact .inl (Bool.or_eq_true_iff.2 (.inr h4))
          · exact .inr ⟨k, by omega, by omega, h3, (hk k (by omega) (by omega)).symm ▸ h4⟩
    · have hb' : spriteBit b c = false := by simpa using hb
      simp only [hb', Bool.false_eq_true, if_false]
      refine or_congr_right ⟨?_, ?_⟩
      · rintro ⟨k, h1, h2, h3, h4⟩; exact ⟨k, by omega, by omega, h3, h4⟩
      · rintro ⟨k, h1, h2, h3, h4⟩
        have : k ≠ c := by rintro rfl; exact hb h3
        exact ⟨k, by omega, by omega, h3, h4⟩

/-- A set bit of row `r`, column `k` of a sprite falls on a pixel (R86). -/
def SpriteHits (cx row : Nat) (bs : List Byte) (q : Fin 32) (p : Fin 64) : Prop :=
  ∃ r k b, bs[r]? = some b ∧ k < 8 ∧ spriteBit b k = true ∧
    q = Fin.ofNat 32 (row + r) ∧ p = Fin.ofNat 64 (cx + k)

theorem SpriteHits_cons (cx row : Nat) (b : Byte) (bs : List Byte) (q : Fin 32) (p : Fin 64) :
    SpriteHits cx row (b :: bs) q p ↔
      (q = Fin.ofNat 32 row ∧ ∃ k, 0 ≤ k ∧ k < 0 + 8 ∧ spriteBit b k = true ∧ p = Fin.ofNat 64 (cx + k)) ∨
      SpriteHits cx (row + 1) bs q p := by
  constructor
  · rintro ⟨r, k, w, hw, hk, hs, hq, hp⟩
    cases r with
    | zero =>
      simp at hw; subst hw
      exact .inl ⟨hq, k, by omega, by omega, hs, hp⟩
    | succ r =>
      simp at hw
      exact .inr ⟨r, k, w, hw, hk, hs, by rw [hq]; congr 1; omega, hp⟩
  · rintro (⟨hq, k, _, hk, hs, hp⟩ | ⟨r, k, w, hw, hk, hs, hq, hp⟩)
    · exact ⟨0, k, b, rfl, by omega, hs, hq, hp⟩
    · exact ⟨r + 1, k, w, by simpa using hw, hk, hs, by rw [hq]; congr 1; omega, hp⟩

/-- A sprite of at most 32 rows flips exactly the pixels its set bits fall on. -/
theorem Canvas.drawRows_pixel (cx : Nat) (bs : List Byte) (row : Nat) (d : Canvas) (q : Fin 32) (p : Fin 64)
    (h : bs.length ≤ 32) :
    (Canvas.drawRows cx row bs d).fb.pixel q p ≠ d.fb.pixel q p ↔ SpriteHits cx row bs q p := by
  induction bs generalizing row d with
  | nil => simp [Canvas.drawRows, SpriteHits]
  | cons b bs ih =>
    simp at h
    rw [Canvas.drawRows, SpriteHits_cons]
    have ih' := ih (row + 1) (Canvas.drawRow b row cx 0 8 d) (by omega)
    have hr := Canvas.drawRow_pixel b row cx 0 8 d q p (by omega)
    have hdis : ¬ ((q = Fin.ofNat 32 row ∧ ∃ k, 0 ≤ k ∧ k < 0 + 8 ∧ spriteBit b k = true ∧
        p = Fin.ofNat 64 (cx + k)) ∧ SpriteHits cx (row + 1) bs q p) := by
      rintro ⟨⟨hq, _⟩, r, k, w, hw, _, _, hq', _⟩
      have hlt : r < bs.length := by
        by_contra hge
        rw [List.getElem?_eq_none (by omega)] at hw; cases hw
      have e : Fin.ofNat 32 (row + 0) = Fin.ofNat 32 (row + (r + 1)) := by
        rw [Nat.add_zero, ← hq, hq']; congr 1; omega
      exact ofNat_add_ne 32 row 0 (r + 1) (by omega) (by omega) e
    revert ih' hr hdis
    generalize (Canvas.drawRows cx (row + 1) bs (Canvas.drawRow b row cx 0 8 d)).fb.pixel q p = X
    generalize (Canvas.drawRow b row cx 0 8 d).fb.pixel q p = Y
    generalize d.fb.pixel q p = Z
    generalize (q = Fin.ofNat 32 row ∧ ∃ k, 0 ≤ k ∧ k < 0 + 8 ∧ spriteBit b k = true ∧
        p = Fin.ofNat 64 (cx + k)) = A
    generalize SpriteHits cx (row + 1) bs q p = B
    cases X <;> cases Y <;> cases Z <;> simp <;> tauto

/-- A sprite of at most 32 rows collides exactly when a set bit falls on a pixel that was lit before. -/
theorem Canvas.drawRows_collide (cx : Nat) (bs : List Byte) (row : Nat) (d : Canvas) (h : bs.length ≤ 32) :
    (Canvas.drawRows cx row bs d).collide = true ↔
      d.collide = true ∨ ∃ q p, SpriteHits cx row bs q p ∧ d.fb.pixel q p = true := by
  induction bs generalizing row d with
  | nil => simp [Canvas.drawRows, SpriteHits]
  | cons b bs ih =>
    simp at h
    rw [Canvas.drawRows, ih (row + 1) _ (by omega), Canvas.drawRow_collide b row cx 0 8 d (by omega)]
    have hsame : ∀ q p, SpriteHits cx (row + 1) bs q p →
        (Canvas.drawRow b row cx 0 8 d).fb.pixel q p = d.fb.pixel q p := by
      intro q p hh
      have hr := (Canvas.drawRow_pixel b row cx 0 8 d q p (by omega)).not
      simp only [ne_eq, not_not] at hr
      rw [hr]
      rintro ⟨hq, _⟩
      obtain ⟨r, k, w, hw, _, _, hq', _⟩ := hh
      have hlt : r < bs.length := by
        by_contra hge
        rw [List.getElem?_eq_none (by omega)] at hw; cases hw
      have e : Fin.ofNat 32 (row + 0) = Fin.ofNat 32 (row + (r + 1)) := by
        rw [Nat.add_zero, ← hq, hq']; congr 1; omega
      exact ofNat_add_ne 32 row 0 (r + 1) (by omega) (by omega) e
    constructor
    · rintro ((h1 | ⟨k, h1, h2, h3, h4⟩) | ⟨q, p, h1, h2⟩)
      · exact .inl h1
      · exact .inr ⟨_, _, (SpriteHits_cons ..).2 (.inl ⟨rfl, k, h1, h2, h3, rfl⟩), h4⟩
      · exact .inr ⟨q, p, (SpriteHits_cons ..).2 (.inr h1), (hsame q p h1) ▸ h2⟩
    · rintro (h1 | ⟨q, p, h1, h2⟩)
      · exact .inl (.inl h1)
      · rcases (SpriteHits_cons ..).1 h1 with ⟨hq, k, h3, h4, h5, hp⟩ | h3
        · exact .inl (.inr ⟨k, h3, h4, h5, by rw [← hq, ← hp]; exact h2⟩)
        · exact .inr ⟨q, p, h3, (hsame q p h3).symm ▸ h2⟩

end Sys2Proof.Machine
end

