-- ==== Sys2Proof/Laws/Step.lean ====
section
/-! SUPPORT. What an instruction and a step can do at all: an instruction completes and leaves status and
parameters alone, or takes one fault that names it; a step answers its faulted, fetch, decode and execute cases. -/

namespace Sys2Proof.Machine

/-- What any meaning may answer: a next state with the status and the parameters it was given, or a fault that
names the executing instruction, taken in the state it was given. -/
def CompletesOrFaults (s : State) (r : Result) : Prop :=
  (∃ t, r = .next t ∧ t.status = s.status ∧ t.cfg = s.cfg) ∨
  (∃ f, f.faultPc = s.insnAddr ∧ r = takeFault f s)

theorem completesOrFaults_next (s t : State) (hs : t.status = s.status) (hc : t.cfg = s.cfg) :
    CompletesOrFaults s (.next t) := .inl ⟨t, rfl, hs, hc⟩

theorem completesOrFaults_takeFault (s : State) (f : Fault) (h : f.faultPc = s.insnAddr) :
    CompletesOrFaults s (takeFault f s) := .inr ⟨f, h, rfl⟩

theorem completesOrFaults_storeBytes (s : State) (bs : List Byte) (a : Nat) :
    CompletesOrFaults s (orFault (storeBytes s a bs) s) := by
  rcases storeBytes_cases s bs a with ⟨e, _⟩ | ⟨_, _, e⟩ | ⟨_, _, _, e⟩
  · rw [e, orFault_ok]; exact completesOrFaults_next s _ rfl rfl
  · rw [e, orFault_error]; exact completesOrFaults_takeFault s _ rfl
  · rw [e, orFault_error]; exact completesOrFaults_takeFault s _ rfl

theorem completesOrFaults_writeWithFlag (x : Reg) (flag : Byte) (result : State → Byte) (s : State) :
    CompletesOrFaults s (.next (writeWithFlag x flag result s)) := by
  rw [writeWithFlag_eq]; exact completesOrFaults_next s _ rfl rfl

theorem completesOrFaults_skipIf (s : State) (c : Bool) : CompletesOrFaults s (.next (s.skipIf c)) := by
  rw [State.skipIf_eq]; exact completesOrFaults_next s _ rfl rfl

theorem completesOrFaults_ret (s : State) : CompletesOrFaults s (execRet s) := by
  unfold execRet
  by_cases h : 0 < s.sp.val
  · rw [popReturn_ok s h, orFault_ok]; exact completesOrFaults_next s _ rfl rfl
  · have h0 : s.sp = 0 := Fin.ext (by simp; omega)
    rw [popReturn_error s h0, orFault_error]; exact completesOrFaults_takeFault s _ rfl

theorem completesOrFaults_call (nnn : BitVec 12) (s : State) : CompletesOrFaults s (execCall nnn s) := by
  unfold execCall
  by_cases h : s.sp.val < 16
  · rw [pushReturn_ok s _ h]; exact completesOrFaults_next s _ rfl rfl
  · have h16 : s.sp = 16 := Fin.ext (by have := s.sp.isLt; simp; omega)
    rw [pushReturn_error s _ h16]; exact completesOrFaults_takeFault s _ rfl

theorem completesOrFaults_ldVxI (x : Reg) (s : State) : CompletesOrFaults s (execLdVxI x s) := by
  unfold execLdVxI
  rcases loadBytes_cases s (x.val + 1) (s.effAddr 0) with ⟨bs, e, _⟩ | ⟨b, _, _, _, e⟩
  · rw [e]; exact completesOrFaults_next s _ rfl rfl
  · rw [e]; exact completesOrFaults_takeFault s _ rfl

theorem completesOrFaults_drw (x y : Reg) (n : Nat) (s : State) : CompletesOrFaults s (execDrw x y n s) := by
  unfold execDrw
  rcases loadBytes_cases s n (s.effAddr 0) with ⟨bs, e, _⟩ | ⟨b, _, _, _, e⟩
  · rw [e]; exact completesOrFaults_next s _ rfl rfl
  · rw [e]; exact completesOrFaults_takeFault s _ rfl

theorem completesOrFaults_keyTest (x : Reg) (c : Key → Bool) (s : State) :
    CompletesOrFaults s (match keyOf (s.getV x) with
      | some k => .next (s.skipIf (c k))
      | none => takeFault (.keyIndexOutOfRange (s.getV x) s.insnAddr) s) := by
  cases keyOf (s.getV x) with
  | some k => exact completesOrFaults_skipIf s _
  | none => exact completesOrFaults_takeFault s _ rfl

theorem completesOrFaults_ldVxK (x : Reg) (s : State) : CompletesOrFaults s (execLdVxK x s) := by
  unfold execLdVxK
  cases s.pressedKeys with
  | nil => exact completesOrFaults_next s _ rfl rfl
  | cons k ks =>
    refine completesOrFaults_next s _ ?_ ?_ <;>
      (split <;> simp [drawKey_state])

/-- Every meaning completes or takes one fault that names its instruction (R93 to R96). -/
theorem exec_completesOrFaults (i : Instr) (s : State) : CompletesOrFaults s (exec i s) := by
  cases i with
  | ret => exact completesOrFaults_ret s
  | call nnn => exact completesOrFaults_call nnn s
  | seImm x kk => exact completesOrFaults_skipIf s _
  | sneImm x kk => exact completesOrFaults_skipIf s _
  | seReg x y => exact completesOrFaults_skipIf s _
  | sneReg x y => exact completesOrFaults_skipIf s _
  | addReg x y => exact completesOrFaults_writeWithFlag ..
  | sub x y => exact completesOrFaults_writeWithFlag ..
  | shr x y => exact completesOrFaults_writeWithFlag ..
  | subn x y => exact completesOrFaults_writeWithFlag ..
  | shl x y => exact completesOrFaults_writeWithFlag ..
  | drw x y n => exact completesOrFaults_drw x y n s
  | skp x => exact completesOrFaults_keyTest x s.keyDown s
  | sknp x => exact completesOrFaults_keyTest x (fun k => !s.keyDown k) s
  | ldVxK x => exact completesOrFaults_ldVxK x s
  | ldBVx x => exact completesOrFaults_storeBytes s _ _
  | ldIVx x => exact completesOrFaults_storeBytes s _ _
  | ldVxI x => exact completesOrFaults_ldVxI x s
  | cls | jp | ldImm | addImm | ldReg | orReg | andReg | xorReg | ldI | jpV0 | rnd | ldVxDt | ldDtVx | ldStVx
  | addIVx | ldFVx => exact completesOrFaults_next s _ rfl rfl

/-! ### The cases of a step (R54 to R57) -/

theorem step_faulted (s : State) (f : Fault) (h : s.status = .faulted f) : step s = .fault f := by
  simp [step, h]

theorem step_fetch_error (s : State) (h : s.status.isFaulted = false) (hp : 4094 < s.pc.toNat) :
    step s = .next { s with status := .faulted (.fetchOutOfRange s.pc) } := by
  unfold step
  cases hs : s.status with
  | faulted f => simp [hs, Status.isFaulted] at h
  | ready => simp [fetch_error s hp, takeFault, Fault.faultPc]
  | running => simp [fetch_error s hp, takeFault, Fault.faultPc]

theorem step_decode_error (s : State) (op : Word) (e : DecodeError) (h : s.status.isFaulted = false)
    (hf : fetch s = .ok op) (hd : decode op = .error e) :
    step s = .next { s with status := .faulted (.unknownOpcode op s.pc) } := by
  have ht := takeFault_advancePc (unknownOpcodeFault op s.advancePc) s rfl
  simp only [unknownOpcodeFault, State.insnAddr_advancePc] at ht
  unfold step
  cases hs : s.status with
  | faulted f => simp [hs, Status.isFaulted] at h
  | ready => simp [hf, hd, unknownOpcodeFault, State.insnAddr_advancePc, ht]
  | running => simp [hf, hd, unknownOpcodeFault, State.insnAddr_advancePc, ht]

theorem step_exec (s : State) (op : Word) (i : Instr) (h : s.status.isFaulted = false)
    (hf : fetch s = .ok op) (hd : decode op = .ok i) :
    step s = completeStep (exec i s.advancePc) := by
  unfold step
  cases hs : s.status with
  | faulted f => simp [hs, Status.isFaulted] at h
  | ready => simp [hf, hd]
  | running => simp [hf, hd]

/-- An engine that is not FAULTED always takes its step: the answer is a next state. -/
theorem step_live (s : State) (h : s.status.isFaulted = false) : ∃ t, step s = .next t := by
  cases hf : fetch s with
  | error f =>
    have hp : 4094 < s.pc.toNat := by
      by_contra hp
      rw [fetch_ok s (by omega)] at hf
      cases hf
    exact ⟨_, step_fetch_error s h hp⟩
  | ok op =>
    cases hd : decode op with
    | error e => exact ⟨_, step_decode_error s op e h hf hd⟩
    | ok i =>
      rw [step_exec s op i h hf hd]
      rcases exec_completesOrFaults i s.advancePc with ⟨t, e, _⟩ | ⟨f, _, e⟩
      · exact ⟨endStep t, by rw [e]; rfl⟩
      · exact ⟨_, by rw [e]; rfl⟩

end Sys2Proof.Machine
end

