-- ==== Sys2Proof/Tests/Slice0.lean ====
section
/-! SUPPORT. The model's own tests: words written out bit by bit from spec/30_encoding.md and
spec/opcode_table.json, and vectors of spec/95_test_vectors.md (each named by its id there). -/

namespace Sys2Proof.Tests

open Sys2Proof.Machine

/-! ### Well-formedness -/

/-- A row count of 16 does not fit op[3:0] (R40). -/
theorem test_row_count_16_is_refused : (Instr.drw 0 0 16).wellFormed = false := by decide

/-- A row count of 15 fits (R40). -/
theorem test_row_count_15_is_admitted : (Instr.drw 0 0 15).wellFormed = true := by decide

/-! ### Decode: words written out from the table's patterns -/

theorem test_decode_control_flow :
    decode 0b0000_0000_1110_1110#16 = .ok .ret ∧
    decode 0b0001_0010_0011_0100#16 = .ok (.jp 0x234) ∧
    decode 0b0010_0011_0000_0001#16 = .ok (.call 0x301) ∧
    decode 0b0011_0011_0100_0010#16 = .ok (.seImm 3 0x42) ∧
    decode 0b0100_1010_0100_0010#16 = .ok (.sneImm 10 0x42) ∧
    decode 0b0101_0001_0010_0000#16 = .ok (.seReg 1 2) ∧
    decode 0b1001_0001_0010_0000#16 = .ok (.sneReg 1 2) ∧
    decode 0b1011_0011_0000_0001#16 = .ok (.jpV0 0x301) := by decide

theorem test_decode_alu :
    decode 0b0110_1010_0010_1111#16 = .ok (.ldImm 10 0x2F) ∧
    decode 0b0111_0000_0000_0011#16 = .ok (.addImm 0 0x03) ∧
    decode 0b1000_0001_0010_0000#16 = .ok (.ldReg 1 2) ∧
    decode 0b1000_0001_0010_0001#16 = .ok (.orReg 1 2) ∧
    decode 0b1000_0001_0010_0010#16 = .ok (.andReg 1 2) ∧
    decode 0b1000_0001_0010_0011#16 = .ok (.xorReg 1 2) ∧
    decode 0b1000_0001_0010_0100#16 = .ok (.addReg 1 2) ∧
    decode 0b1000_0001_0010_0101#16 = .ok (.sub 1 2) ∧
    decode 0b1000_0001_0010_0110#16 = .ok (.shr 1 2) ∧
    decode 0b1000_0001_0010_0111#16 = .ok (.subn 1 2) ∧
    decode 0b1000_0001_0010_1110#16 = .ok (.shl 1 2) ∧
    decode 0b1100_0011_0000_1111#16 = .ok (.rnd 3 0x0F) := by decide

theorem test_decode_index_memory :
    decode 0b1010_0010_1111_0000#16 = .ok (.ldI 0x2F0) ∧
    decode 0b1111_0001_0001_1110#16 = .ok (.addIVx 1) ∧
    decode 0b1111_0011_0010_1001#16 = .ok (.ldFVx 3) ∧
    decode 0b1111_0000_0011_0011#16 = .ok (.ldBVx 0) ∧
    decode 0b1111_0010_0101_0101#16 = .ok (.ldIVx 2) ∧
    decode 0b1111_0010_0110_0101#16 = .ok (.ldVxI 2) := by decide

theorem test_decode_display_keypad_timers :
    decode 0b0000_0000_1110_0000#16 = .ok .cls ∧
    decode 0b1101_0011_0101_1010#16 = .ok (.drw 3 5 10) ∧
    decode 0b1110_0101_1001_1110#16 = .ok (.skp 5) ∧
    decode 0b1110_0101_1010_0001#16 = .ok (.sknp 5) ∧
    decode 0b1111_0011_0000_0111#16 = .ok (.ldVxDt 3) ∧
    decode 0b1111_0010_0000_1010#16 = .ok (.ldVxK 2) ∧
    decode 0b1111_0100_0001_0101#16 = .ok (.ldDtVx 4) ∧
    decode 0b1111_0100_0001_1000#16 = .ok (.ldStVx 4) := by decide

/-- E1, E2, E5: op[11:4] of group 0 is ignored. -/
theorem test_decode_group0_ignores_middle_bits :
    decode 0x0000#16 = .ok .cls ∧ decode 0x0FF0#16 = .ok .cls ∧ decode 0x0A5E#16 = .ok .ret := by decide

/-- E3, E6 to E11: illegal words carry the raw word. -/
theorem test_decode_rejects :
    decode 0x0123#16 = .error (.unknownOpcode 0x0123) ∧
    decode 0x5121#16 = .error (.unknownOpcode 0x5121) ∧
    decode 0x912F#16 = .error (.unknownOpcode 0x912F) ∧
    decode 0x8008#16 = .error (.unknownOpcode 0x8008) ∧
    decode 0xE0A2#16 = .error (.unknownOpcode 0xE0A2) ∧
    decode 0xF000#16 = .error (.unknownOpcode 0xF000) ∧
    decode 0xFFFF#16 = .error (.unknownOpcode 0xFFFF) := by decide

theorem test_decode_bytes :
    decodeBytes [0x12, 0x34, 0xAB] = .ok (.jp 0x234, [0xAB]) ∧
    decodeBytes [0x12] = .error (.tooShort 1) ∧
    decodeTableWord 16 0xD35A = some (.drw 3 5 10) ∧
    decodeTableWord 16 0x5121 = none := by decide

/-- The table has 34 rows, and no word is two rows' (R49). -/
theorem test_table_rows_are_disjoint :
    opcodeTable.length = 34 ∧
    opcodeTable.Pairwise (fun r q => (r.value ^^^ q.value) &&& r.mask &&& q.mask ≠ 0) := by decide

/-! ### One step: helpers -/

/-- `s` with registers written. -/
def regs (s : State) (ws : List (Reg × Byte)) : State := ws.foldl (fun t w => t.setV w.1 w.2) s

/-- The state of an outcome; reset where there is none. -/
def outcomeState : Result → State
  | .next t => t
  | .fault _ => State.reset
  | .refused _ => State.reset

/-- One step of `s` with a word placed at pc. -/
def stepWord (w : Nat) (s : State) : State := outcomeState (step (s.withFetchWord 16 w))

/-- Reset with registers written. -/
def withRegs (ws : List (Reg × Byte)) : State := regs State.reset ws

/-- The parameters with `P_FLAG_ORDER = FLAG_LAST`. -/
def flagLast (s : State) : State :=
  { s with cfg := { s.cfg with flagOrder := .flagLast } }

/-- The parameters with `P_TIMER_MODE = HOST_TICK`. -/
def hostTick (s : State) : State :=
  { s with cfg := { s.cfg with timerMode := .hostTick } }

/-! ### Control flow: B1 to B19, E4, E12 -/

theorem test_jp_b1 : (stepWord 0x1234 State.reset).pc = 0x234 := by decide

theorem test_call_b4 :
    (stepWord 0x2300 State.reset).stack[0] = 0x202 ∧ (stepWord 0x2300 State.reset).sp = 1 ∧
    (stepWord 0x2300 State.reset).pc = 0x300 := by decide

theorem test_call_overflow_b5 :
    (stepWord 0x2300 { State.reset with sp := 16 }).status = .faulted (.stackOverflow 0x200) ∧
    (stepWord 0x2300 { State.reset with sp := 16 }).pc = 0x200 := by decide

theorem test_ret_b6 :
    let t := stepWord 0x00EE { State.reset with sp := 2, stack := State.reset.stack.set 1 0x456 }
    t.sp = 1 ∧ t.pc = 0x456 ∧ t.stack[1] = 0x456 := by decide

theorem test_ret_underflow_e4 :
    (stepWord 0x000E State.reset).status = .faulted (.stackUnderflow 0x200) := by decide

theorem test_jp_v0_b7_b8 :
    (stepWord 0xB300 (withRegs [(0, 0x10)])).pc = 0x310 ∧
    (stepWord 0xBFFF (withRegs [(0, 0xFF)])).pc = 0x10FE := by decide

theorem test_se_imm_b10_b11 :
    (stepWord 0x3342 (withRegs [(3, 0x42)])).pc = 0x204 ∧
    (stepWord 0x3342 (withRegs [(3, 0x41)])).pc = 0x202 := by decide

theorem test_sne_imm_b12_b13 :
    (stepWord 0x4342 (withRegs [(3, 0x41)])).pc = 0x204 ∧
    (stepWord 0x4342 (withRegs [(3, 0x42)])).pc = 0x202 := by decide

theorem test_se_reg_b14_b15 :
    (stepWord 0x5120 (withRegs [(1, 7), (2, 7)])).pc = 0x204 ∧
    (stepWord 0x5120 (withRegs [(1, 7), (2, 8)])).pc = 0x202 := by decide

theorem test_sne_reg_b17_b18 :
    (stepWord 0x9120 (withRegs [(1, 7), (2, 8)])).pc = 0x204 ∧
    (stepWord 0x9110 State.reset).pc = 0x202 := by decide

/-! ### Arithmetic and logic: A1 to A47 -/

theorem test_ld_imm_a1_a2 :
    (stepWord 0x6A2F State.reset).getV 10 = 0x2F ∧ (stepWord 0x6FAA State.reset).getV vf = 0xAA := by decide

theorem test_add_imm_a4_a6 :
    (stepWord 0x7001 (withRegs [(0, 0xFF)])).getV 0 = 0x00 ∧
    (stepWord 0x7001 (withRegs [(0, 0xFF)])).getV vf = 0x00 ∧
    (stepWord 0x7F01 (withRegs [(vf, 0xFF)])).getV vf = 0x00 := by decide

theorem test_ld_reg_a7 : (stepWord 0x8010 (withRegs [(1, 0x33)])).getV 0 = 0x33 := by decide

theorem test_logic_a8_a9_a10 :
    (stepWord 0x8011 (withRegs [(0, 0xF0), (1, 0x0F), (vf, 0x5A)])).getV 0 = 0xFF ∧
    (stepWord 0x8011 (withRegs [(0, 0xF0), (1, 0x0F), (vf, 0x5A)])).getV vf = 0x5A ∧
    (stepWord 0x8012 (withRegs [(0, 0xF0), (1, 0x3C)])).getV 0 = 0x30 ∧
    (stepWord 0x8013 (withRegs [(0, 0xFF), (1, 0x0F)])).getV 0 = 0xF0 := by decide

theorem test_add_reg_a13_a15 :
    (stepWord 0x8014 (withRegs [(0, 0x80), (1, 0x80)])).getV 0 = 0x00 ∧
    (stepWord 0x8014 (withRegs [(0, 0x80), (1, 0x80)])).getV vf = 1 ∧
    (stepWord 0x8004 (withRegs [(0, 0x7F)])).getV vf = 0 := by decide

theorem test_add_reg_vf_a16_a17 :
    (stepWord 0x8F14 (withRegs [(vf, 0x10), (1, 0x20)])).getV vf = 0x30 ∧
    (stepWord 0x8F14 (flagLast (withRegs [(vf, 0xFF), (1, 0x01)]))).getV vf = 0x01 := by decide

theorem test_sub_a20_a22 :
    (stepWord 0x8015 (withRegs [(0, 7), (1, 7)])).getV vf = 0 ∧
    (stepWord 0x8015 (withRegs [(1, 1)])).getV 0 = 0xFF := by decide

theorem test_sub_vf_a23_a25 :
    (stepWord 0x8F15 (withRegs [(vf, 0x0A), (1, 0x05)])).getV vf = 0xFC ∧
    (stepWord 0x80F5 (withRegs [(0, 0x0A), (vf, 0x05)])).getV 0 = 0x09 ∧
    (stepWord 0x80F5 (flagLast (withRegs [(0, 0x0A), (vf, 0x05)]))).getV 0 = 0x05 := by decide

theorem test_shr_a31_a32 :
    (stepWord 0x8236 (withRegs [(2, 5), (3, 0x99)])).getV 2 = 2 ∧
    (stepWord 0x8236 (withRegs [(2, 5), (3, 0x99)])).getV vf = 1 ∧
    (stepWord 0x8F06 (withRegs [(vf, 3)])).getV vf = 0 := by decide

theorem test_subn_a33_a38 :
    (stepWord 0x8017 (withRegs [(0, 5), (1, 10)])).getV 0 = 5 ∧
    (stepWord 0x8017 (withRegs [(0, 5), (1, 10)])).getV vf = 1 ∧
    (stepWord 0x80F7 (withRegs [(0, 5), (vf, 10)])).getV 0 = 0xFC := by decide

theorem test_shl_a39_a42 :
    (stepWord 0x820E (withRegs [(2, 0x81)])).getV 2 = 2 ∧
    (stepWord 0x820E (withRegs [(2, 0x81)])).getV vf = 1 ∧
    (stepWord 0x8F0E (withRegs [(vf, 0x80)])).getV vf = 2 ∧
    (stepWord 0x8F0E (flagLast (withRegs [(vf, 0x80)]))).getV vf = 1 := by decide

/-- A45: a mask of zero gives zero for every draw. -/
theorem test_rnd_a45 : (stepWord 0xC300 (withRegs [(3, 0x77)])).getV 3 = 0 := by
  show Config.randomDraw 0 &&& 0#8 = 0#8
  exact BitVec.and_zero

/-! ### Index register and memory: M1 to M26 -/

theorem test_ld_i_m1 : (stepWord 0xA2F0 State.reset).i = 0x2F0 := by decide

theorem test_add_i_m3_m4 :
    (stepWord 0xF11E { withRegs [(1, 1)] with i := 0x0FFF }).i = 0x1000 ∧
    (stepWord 0xF11E { withRegs [(1, 1)] with i := 0xFFFF }).i = 0x0000 := by decide

theorem test_ld_f_m5_m8 :
    (stepWord 0xF329 (withRegs [(3, 0x0A)])).i = 0x32 ∧
    (stepWord 0xF329 (withRegs [(3, 0xFF)])).i = 0x4FB := by decide

theorem test_ld_b_m9 :
    let t := stepWord 0xF033 { withRegs [(0, 0x9D)] with i := 0x300 }
    t.readByte 0x300 = 1 ∧ t.readByte 0x301 = 5 ∧ t.readByte 0x302 = 7 := by decide

theorem test_ld_b_m13_m15 :
    (stepWord 0xF033 { withRegs [(0, 0x9D)] with i := 0xFFE }).status
      = .faulted (.memOutOfRange 0x1000 0x200) ∧
    (stepWord 0xF033 { withRegs [(0, 0x9D)] with i := 0xFFE }).readByte 0xFFE = 0 ∧
    (stepWord 0xF033 { State.reset with i := 0x4E }).status = .faulted (.fontWrite 0x4E 0x200) := by decide

theorem test_ld_i_vx_m17 :
    let t := stepWord 0xF255 { withRegs [(0, 0x11), (1, 0x22), (2, 0x33), (3, 0x44)] with i := 0x400 }
    t.readByte 0x400 = 0x11 ∧ t.readByte 0x401 = 0x22 ∧ t.readByte 0x402 = 0x33 ∧
    t.readByte 0x403 = 0 ∧ t.i = 0x400 := by decide

theorem test_ld_i_vx_m20 :
    (stepWord 0xF355 { withRegs [(0, 1)] with i := 0xFFD }).status
      = .faulted (.memOutOfRange 0x1000 0x200) ∧
    (stepWord 0xF355 { withRegs [(0, 1)] with i := 0xFFD }).readByte 0xFFD = 0 := by decide

theorem test_ld_vx_i_m23 :
    let t := stepWord 0xF465 State.reset
    t.getV 0 = 0xF0 ∧ t.getV 1 = 0x90 ∧ t.getV 3 = 0x90 ∧ t.getV 4 = 0xF0 ∧ t.getV 5 = 0 := by decide

theorem test_ld_vx_i_m24_m25 :
    (stepWord 0xF165 { State.reset with i := 0xFFF }).status = .faulted (.memOutOfRange 0x1000 0x200) ∧
    (stepWord 0xF065 { State.reset with i := 0xFFFF }).status
      = .faulted (.memOutOfRange 0xFFFF 0x200) := by decide

/-! ### Display: D3 to D9 -/

theorem test_cls_e1 :
    let t := stepWord 0x0000 { State.reset with fb := State.reset.fb.flip 3 4 }
    t.fb.pixel 3 4 = false ∧ t.frameDirty = true ∧ t.pc = 0x202 := by decide

/-- D3: a sprite that crosses the right and bottom edges wraps. -/
theorem test_drw_wraps_d3 :
    let s := (({ withRegs [(0, 0x3E), (1, 0x1F)] with i := 0x300 }).pokeByte 0x300 0xFF).pokeByte 0x301 0xFF
    let t := stepWord 0xD012 s
    t.fb.pixel 31 62 = true ∧ t.fb.pixel 0 5 = true ∧ t.fb.pixel 0 6 = false ∧ t.fb.pixel 1 0 = false ∧
    t.getV vf = 0 := by decide

/-- D5 and D7: collision; the coordinates are VF's value on entry. -/
theorem test_drw_collision_d5_d7 :
    let s := ({ State.reset with i := 0x300, fb := State.reset.fb.flip 0 1 }).pokeByte 0x300 0xC0
    let t := stepWord 0xD011 s
    let u := stepWord 0xDFF1 (({ withRegs [(vf, 5)] with i := 0x300 }).pokeByte 0x300 0x80)
    t.fb.pixel 0 0 = true ∧ t.fb.pixel 0 1 = false ∧ t.getV vf = 1 ∧
    u.fb.pixel 5 5 = true ∧ u.getV vf = 0 := by decide

/-! ### Keypad and timers: K1 to K17 -/

theorem test_skp_k1_k5 :
    (stepWord 0xE59E ((withRegs [(5, 0x0A)]).setKey 10 true)).pc = 0x204 ∧
    (stepWord 0xE59E (withRegs [(5, 0x10)])).status = .faulted (.keyIndexOutOfRange 0x10 0x200) := by decide

theorem test_sknp_k3_k4 :
    (stepWord 0xE5A1 (withRegs [(5, 0x0A)])).pc = 0x204 ∧
    (stepWord 0xE5A1 ((withRegs [(5, 0x0A)]).setKey 10 true)).pc = 0x202 := by decide

theorem test_ld_vx_dt_k7 :
    (stepWord 0xF307 { State.reset with dt := 0x20 }).getV 3 = 0x20 ∧
    (stepWord 0xF307 { State.reset with dt := 0x20 }).dt = 0x1F := by decide

theorem test_ld_vx_k_k9_k10 :
    (stepWord 0xF20A { State.reset with dt := 3 }).pc = 0x200 ∧
    (stepWord 0xF20A { State.reset with dt := 3 }).dt = 2 ∧
    (stepWord 0xF20A (State.reset.setKey 7 true)).getV 2 = 7 ∧
    (stepWord 0xF20A (State.reset.setKey 7 true)).pc = 0x202 := by decide

theorem test_ld_vx_k_clears_k11 :
    let s := { State.reset with cfg := { defaultConfig with fx0aClearsKey := true } }
    (stepWord 0xF20A (s.setKey 7 true)).keyDown 7 = false := by decide

theorem test_ld_dt_vx_k13_k14 :
    (stepWord 0xF415 (withRegs [(4, 5)])).dt = 4 ∧
    (stepWord 0xF415 (hostTick (withRegs [(4, 5)]))).dt = 5 := by decide

theorem test_ld_st_vx_k16_k17 :
    (stepWord 0xF418 (withRegs [(4, 1)])).st = 0 ∧ (stepWord 0xF418 (withRegs [(4, 5)])).st = 4 := by decide

/-! ### Fetch, status and host: E13, E14, E16, H1 to H6 -/

theorem test_fetch_e13 :
    (outcomeState (step { State.reset with pc := 0xFFF, dt := 5 })).status = .faulted (.fetchOutOfRange 0xFFF) ∧
    (outcomeState (step { State.reset with pc := 0xFFF, dt := 5 })).dt = 5 := by decide

theorem test_last_fetch_e14 :
    (stepWord 0x6007 { State.reset with pc := 0xFFE }).getV 0 = 7 ∧
    (stepWord 0x6007 { State.reset with pc := 0xFFE }).pc = 0x1000 ∧
    (stepWord 0x6007 { State.reset with pc := 0xFFE }).status = .running := by decide

theorem test_fault_does_not_tick_e16 :
    (stepWord 0x8008 { State.reset with dt := 5, st := 5 }).dt = 5 ∧
    (stepWord 0x8008 { State.reset with dt := 5, st := 5 }).status = .faulted (.unknownOpcode 0x8008 0x200) ∧
    (stepWord 0x8008 { State.reset with dt := 5, st := 5 }).pc = 0x200 := by decide

theorem test_host_load_h1_h2 :
    (hostLoad [0x12, 0x00] State.reset).1.readByte 0x200 = 0x12 ∧
    (hostLoad [0x12, 0x00] State.reset).2 = .ok ∧
    (hostLoad [0x12, 0x00] { State.reset with status := .running }).2 = .notAdmitted := by decide

theorem test_host_set_key_h3_h4 :
    (hostSetKey 16 true State.reset).2 = .notAdmitted ∧
    (hostSetKey 15 true State.reset).1.keyDown 15 = true := by decide

theorem test_host_step_faulted_h6 :
    let s := { State.reset with status := .faulted (.stackOverflow 0x204) }
    (hostStep s).2 = .fault (.stackOverflow 0x204) ∧ (hostStep s).1.status = s.status := by decide

/-! ### Witnesses: concrete states and operands that meet the hypotheses of the obligations, each named after
its obligation, at boundary values where a clause has a range -/

/-- A live engine's step is the state `stepWord` shows. -/
theorem step_eq_stepWord (w : Nat) (s : State) (h : (s.withFetchWord 16 w).live) :
    step (s.withFetchWord 16 w) = .next (stepWord w s) := by
  obtain ⟨t, ht⟩ := step_live _ h
  rw [stepWord, ht]; rfl

/-- A step that raises a fault, as the obligations about faulting steps suppose. -/
theorem step_faults (w : Nat) (s : State) (f : Fault) (h : (s.withFetchWord 16 w).live)
    (hf : (stepWord w s).status = .faulted f) :
    ∃ t, step (s.withFetchWord 16 w) = .next t ∧ t.status = .faulted f :=
  ⟨_, step_eq_stepWord w s h, hf⟩

/-- A step that completes, as the obligations about completed steps suppose. -/
theorem step_completes (w : Nat) (s : State) (h : (s.withFetchWord 16 w).live) (hl : (stepWord w s).live) :
    ∃ t, step (s.withFetchWord 16 w) = .next t ∧ t.live :=
  ⟨_, step_eq_stepWord w s h, hl⟩

theorem witness_Decode_group_selectors :
    fieldG 0x0FFE#16 = 0x0 ∧ fieldG 0x5FF0#16 = 0x5 ∧ fieldG 0x9001#16 = 0x9 ∧ fieldG 0x800F#16 = 0x8 ∧
    fieldG 0xEF9E#16 = 0xE ∧ fieldG 0xF065#16 = 0xF := by decide

theorem witness_Illegal_words_are_those_listed :
    (State.reset.withFetchWord 16 0x5121).live ∧ (State.reset.withFetchWord 16 0x5121).fetches 0x5121 ∧
    ∀ i, decode 0x5121#16 ≠ .ok i := by
  refine ⟨by decide, by decide, fun i h => ?_⟩
  have e : decode 0x5121#16 = .error (.unknownOpcode 0x5121) := by decide
  rw [e] at h; cases h

theorem witness_Decode_encode_round_trip :
    (Instr.drw 15 15 15).wellFormed = true ∧ (Instr.jp 0xFFF).wellFormed = true := by decide

theorem witness_Encode_decode_round_trip :
    decode 0x0FF0#16 = .ok .cls ∧ fieldG 0x0FF0#16 = 0x0 ∧
    decode 0xFF65#16 = .ok (.ldVxI 15) ∧ fieldG 0xFF65#16 ≠ 0x0 := by decide

theorem witness_Table_rows_are_disjoint_and_complete :
    (opcodeRow (.ldVxI 0)).admits 0xFF65#16 = true ∧ opcodeRow (.ldVxI 0) ∈ opcodeTable := by decide

theorem witness_Ignored_bits_change_nothing :
    fieldG 0x0000#16 = 0x0 ∧ fieldG 0x0FF0#16 = 0x0 ∧ fieldN 0x0000#16 = fieldN 0x0FF0#16 ∧
    fieldN 0x0000#16 = 0x0 ∧ fieldN 0x0A5E#16 = 0xE ∧
    fieldG 0xE59E#16 = 0xE ∧ decode 0xE59E#16 = .ok (.skp 5) ∧
    fieldG 0xF533#16 = 0xF ∧ decode 0xF533#16 = .ok (.ldBVx 5) := by decide

/-- Both cases: an instruction that completes at the last pc, and one that faults. -/
theorem witness_Step_runs_the_decoded_instruction :
    let s := State.withFetchWord { State.reset with pc := 0xFFE } 16 0x6007
    let u := State.reset.withFetchWord 16 0x00EE
    s.live ∧ s.pc.toNat ≤ 4094 ∧
    decode (s.readByte s.pc.toNat ++ s.readByte (s.pc.toNat + 1)) = .ok (.ldImm 0 7) ∧
    (∃ t, exec (.ldImm 0 7) { s with pc := s.pc + 2 } = .next t ∧ t.live) ∧
    u.live ∧ decode (u.readByte u.pc.toNat ++ u.readByte (u.pc.toNat + 1)) = .ok .ret ∧
    (∃ t, exec .ret { u with pc := u.pc + 2 } = .next t ∧ t.status = .faulted (.stackUnderflow 0x200)) :=
  ⟨by decide, by decide, by decide, ⟨_, rfl, by decide⟩, by decide, by decide, ⟨_, rfl, by decide⟩⟩

theorem witness_Fetch_reads_two_bytes_high_first :
    ({ State.reset with pc := 0xFFF } : State).live ∧
    4094 < ({ State.reset with pc := 0xFFF } : State).pc.toNat ∧
    ({ State.reset with pc := 0xFFE } : State).pc.toNat ≤ 4094 := by decide

theorem witness_Faulted_engine_is_stuck :
    ({ State.reset with status := .faulted (.stackOverflow 0x204) } : State).status
      = .faulted (.stackOverflow 0x204) := rfl

/-- Every kind of fault: Faulting_step_is_all_or_nothing and Fault_kinds_conditions_and_info. -/
theorem witness_Faulting_step_is_all_or_nothing :
    (∃ t, step (State.reset.withFetchWord 16 0x8008) = .next t ∧
      t.status = .faulted (.unknownOpcode 0x8008 0x200)) ∧
    (∃ t, step (State.withFetchWord { State.reset with pc := 0xFFF } 16 0) = .next t ∧
      t.status = .faulted (.fetchOutOfRange 0xFFF)) ∧
    (∃ t, step (State.withFetchWord { State.reset with i := 0xFFE } 16 0xD003) = .next t ∧
      t.status = .faulted (.memOutOfRange 0x1000 0x200)) ∧
    (∃ t, step (State.withFetchWord { State.reset with i := 0x4F } 16 0xF033) = .next t ∧
      t.status = .faulted (.fontWrite 0x4F 0x200)) ∧
    (∃ t, step (State.withFetchWord { State.reset with sp := 16 } 16 0x2300) = .next t ∧
      t.status = .faulted (.stackOverflow 0x200)) ∧
    (∃ t, step (State.reset.withFetchWord 16 0x00EE) = .next t ∧
      t.status = .faulted (.stackUnderflow 0x200)) ∧
    (∃ t, step ((withRegs [(5, 0x10)]).withFetchWord 16 0xE5A1) = .next t ∧
      t.status = .faulted (.keyIndexOutOfRange 0x10 0x200)) :=
  ⟨step_faults _ _ _ (by decide) (by decide), step_faults _ _ _ (by decide) (by decide),
   step_faults _ _ _ (by decide) (by decide), step_faults _ _ _ (by decide) (by decide),
   step_faults _ _ _ (by decide) (by decide), step_faults _ _ _ (by decide) (by decide),
   step_faults _ _ _ (by decide) (by decide)⟩

theorem witness_Completed_step_leaves_running :
    ∃ t, step (State.reset.withFetchWord 16 0x6A2F) = .next t ∧ t.live :=
  step_completes _ _ (by decide) (by decide)

/-- Both timer modes, with the instruction that writes DT. -/
theorem witness_Completed_step_ticks_both_timers :
    let s := (withRegs [(4, 5)]).withFetchWord 16 0xF415
    let u := (hostTick (withRegs [(4, 5)])).withFetchWord 16 0xF415
    s.runs (.ldDtVx 4) ∧ s.cfg.timerMode = .perStep ∧ (∃ t, step s = .next t ∧ t.live) ∧
    u.runs (.ldDtVx 4) ∧ u.cfg.timerMode = .hostTick ∧ (∃ t, step u = .next t ∧ t.live) :=
  ⟨⟨by decide, 0xF415, by decide, by decide⟩, by decide, step_completes _ _ (by decide) (by decide),
   ⟨by decide, 0xF415, by decide, by decide⟩, by decide, step_completes _ _ (by decide) (by decide)⟩

/-- A state that meets every invariant and takes a step that stores: the Step_keeps statements, the writers'
statement and the statement about what is never read. -/
theorem witness_Step_keeps_invariants :
    let s := State.withFetchWord { withRegs [(0, 9)] with i := 0x50 } 16 0xF055
    s.memWf ∧ s.fontIntact ∧ s.pcBounded ∧ (∃ t, step s = .next t ∧ t.live) ∧
    (stepWord 0xF055 { withRegs [(0, 9)] with i := 0x50 }).mem ≠ s.mem :=
  ⟨by decide, by decide, by decide, step_completes _ _ (by decide) (by decide), by decide⟩

/-- Each kind of state does change somewhere, so no clause of the writers' statement is empty. -/
theorem witness_Only_the_named_instructions_write_each_state :
    (stepWord 0xD011 { State.reset with i := 0 }).fb ≠ State.reset.fb ∧
    (stepWord 0x00E0 State.reset).frameDirty ≠ State.reset.frameDirty ∧
    (stepWord 0x2300 State.reset).stack ≠ State.reset.stack ∧
    (stepWord 0x2300 State.reset).sp ≠ State.reset.sp ∧
    (stepWord 0xA2F0 State.reset).i ≠ State.reset.i ∧
    (let s := State.setKey { State.reset with cfg := { defaultConfig with fx0aClearsKey := true } } 7 true
     (stepWord 0xF20A s).keys ≠ s.keys) ∧
    (stepWord 0x6FAA State.reset).getV vf ≠ State.reset.getV vf := by decide

theorem witness_Canonical_memories_reading_alike_are_equal :
    Memory.wf defaultFontset [(0x050, 1), (0xFFF, 2)] := by decide

theorem witness_Checked_read_and_write_of_a_byte :
    4095 < 4096 ∧ (0x04F : Nat) ≤ 0x04F ∧ (0x050 : Nat) ≤ 0x050 ∧ (0x050 : Nat) ≤ 4095 := by decide

/-- The encodings: each row's mask is met by a word. -/
theorem witness_Encodes :
    ((samples0To7 ++ samples8 ++ samples9ToE ++ samplesF).all
      fun i => encode i &&& (opcodeRow i).mask == (opcodeRow i).value) = true := by decide

/-- Jumps, calls and returns, at the ends of the ranges. -/
theorem witness_control_flow :
    4094 < (0xFFF#12).toNat ∧ 4094 < (0xF00#12).toNat + ((withRegs [(0, 0xFF)]).getV 0).toNat ∧
    ({ State.reset with sp := 15 } : State).sp.val < 16 ∧ ({ State.reset with sp := 16 } : State).sp = 16 ∧
    ({ State.reset with sp := 1 } : State).sp.val = (0 : Fin 16).val + 1 ∧
    ({ State.reset with sp := 16 } : State).sp.val = (15 : Fin 16).val + 1 ∧ State.reset.sp = 0 := by decide

/-- The flag instructions: every case of x and y against 0xF, in both orders. -/
theorem witness_flag_orders :
    (0 : Reg) ≠ vf ∧ (1 : Reg) ≠ vf ∧ (15 : Reg) = vf ∧ State.reset.cfg.flagOrder = .sequential ∧
    (flagLast State.reset).cfg.flagOrder = .flagLast := by decide

/-- The block transfers and the sprite: the last addresses that fit and the first that do not. -/
theorem witness_memory_transfers :
    0x050 ≤ ({ State.reset with i := 0x050 } : State).effAddr 0 ∧
    ({ State.reset with i := 0xFFD } : State).effAddr 2 ≤ 4095 ∧
    ({ State.reset with i := 0xFF0 } : State).effAddr (15 : Reg).val ≤ 4095 ∧
    4095 < ({ State.reset with i := 0xFFE } : State).effAddr 2 ∧
    (∀ j, j < 2 → 0x050 ≤ ({ State.reset with i := 0xFFE } : State).effAddr j ∧
      ({ State.reset with i := 0xFFE } : State).effAddr j ≤ 4095) ∧
    4095 < ({ State.reset with i := 0xFFFF } : State).effAddr 0 ∧
    ({ State.reset with i := 0x04F } : State).effAddr 0 ≤ 0x04F ∧
    ({ State.reset with i := 0xFF1 } : State).effAddr 15 ≤ 4096 ∧
    (Instr.drw 0 1 15).wellFormed = true := by decide

theorem witness_Fetch_sees_the_store_of_the_step_before :
    let s : State := { State.reset with i := 0x200, pc := 0x202 }
    0x050 ≤ s.effAddr 0 ∧ s.effAddr (3 : Reg).val ≤ 4095 ∧ (3 : Reg).val = (2 : Reg).val + 1 ∧
    (3 : Reg) ≤ 3 ∧ s.pc.toNat = s.effAddr (2 : Reg).val := by decide

/-- The keypad: a key named, a value past 0x0F, no key and one key pressed. -/
theorem witness_keypad :
    ((withRegs [(5, 0x0F)]).getV 5).toNat = (15 : Key).val ∧ 0x0F < ((withRegs [(5, 0x10)]).getV 5).toNat ∧
    (∀ k, State.reset.keyDown k = false) ∧ (State.reset.setKey 7 true).keyDown 7 = true := by decide

/-- The host: a ROM of the largest size and one byte more, in READY; a status that is not READY; the last key
and the first index past it; both timer modes. -/
theorem witness_host :
    State.reset.status = .ready ∧ (List.replicate 3584 (0xAB#8)).length ≤ 4096 - 0x200 ∧
    4096 - 0x200 < (List.replicate 3585 (0xAB#8)).length ∧
    ({ State.reset with status := .running } : State).status ≠ .ready ∧
    (15 : Nat) = (15 : Key).val ∧ (16 : Nat) ≤ 16 ∧ (hostTick State.reset).cfg.timerMode = .hostTick ∧
    State.reset.cfg.timerMode = .perStep ∧ hostCall .reset State.reset = (State.reset, .ok) :=
  ⟨by decide, by rw [List.length_replicate], by rw [List.length_replicate]; decide, by decide, by decide,
   by decide, by decide, by decide, rfl⟩

theorem witness_Parked_engine_stays_parked :
    (State.reset.withFetchWord 16 0x1200).live ∧ (State.reset.withFetchWord 16 0x1200).parkedAt 0x200 :=
  ⟨by decide, by decide, by decide, by decide⟩

end Sys2Proof.Tests
end

section
/-! PROOFS. Memory (20_memory.md): the checked read and write of one byte (R29, R30). -/

namespace Sys2Proof.Machine

/-- The obligations write the faulting address out as pc minus 2; the handlers name it. -/
theorem State.insnAddr_eq_executingAt (s : State) : s.insnAddr = s.executingAt := rfl

theorem memRead_eq_ite (s : State) (a : Nat) :
    memRead s a = if 4095 < a then .error (.memOutOfRange a s.insnAddr) else .ok (s.readByte a) := by
  split
  case isTrue h => exact memRead_error s a h
  case isFalse h => exact memRead_ok s a (Nat.not_lt.1 h)

theorem memWrite_range_error (s : State) (a : Nat) (b : Byte) (h : 4095 < a) :
    memWrite s a b = .error (.memOutOfRange a s.insnAddr) := by
  rcases memWrite_cases s a b with ⟨_, e⟩ | ⟨hf, _⟩ | ⟨_, hr, _⟩
  · exact e
  · omega
  · omega

theorem memWrite_font_error (s : State) (a : Nat) (b : Byte) (h : a ≤ 0x04F) :
    memWrite s a b = .error (.fontWrite a s.insnAddr) := by
  rcases memWrite_cases s a b with ⟨hr, _⟩ | ⟨_, e⟩ | ⟨hf, _, _⟩
  · omega
  · exact e
  · omega

/-- The bytes a state reads after one byte was written. -/
theorem State.readByte_pokeByte (s : State) (a c : Nat) (b : Byte) :
    (s.pokeByte a b).readByte c = if c = a then b else s.readByte c := by
  split
  case isTrue h => rw [h, State.readByte_pokeByte_same]
  case isFalse h => exact State.readByte_pokeByte_ne s a c b h

/-- Settles O24: the read by its range check, the write by its three cases, and the byte written by what
`pokeByte` leaves to be read. -/
theorem checked_read_and_write_of_a_byte : Obligations.Checked_read_and_write_of_a_byte := by
  intro s a b
  simp only [← State.insnAddr_eq_executingAt]
  refine ⟨memRead_eq_ite s a, memWrite_range_error s a b, memWrite_font_error s a b, fun hf hr => ?_⟩
  exact ⟨s.pokeByte a b, memWrite_ok s a b hr hf, rfl, fun c => State.readByte_pokeByte s a c b⟩

end Sys2Proof.Machine
end

section
/-! PROOFS. Encoding (30_encoding.md): what decode answers in each group (R43 to R51). -/

namespace Sys2Proof

/-! ### The groups with a second-level selector (R44 to R48) -/

theorem decode_group0 (op : Word) (h : fieldG op = 0x0) : decode op = decodeGroup0 op := by
  simp [decode, h]

theorem decode_group5 (op : Word) (h : fieldG op = 0x5) : decode op = decodeGroup5 op := by
  simp [decode, h]

theorem decode_group8 (op : Word) (h : fieldG op = 0x8) : decode op = decodeGroup8 op := by
  simp [decode, h]

theorem decode_group9 (op : Word) (h : fieldG op = 0x9) : decode op = decodeGroup9 op := by
  simp [decode, h]

theorem decode_groupE (op : Word) (h : fieldG op = 0xE) : decode op = decodeGroupE op := by
  simp [decode, h]

theorem decode_groupF (op : Word) (h : fieldG op = 0xF) : decode op = decodeGroupF op := by
  simp [decode, h]

/-! Each group's selector as a chain of tests. -/

theorem decodeGroup0_eq_ite (op : Word) :
    decodeGroup0 op =
      if fieldN op = 0x0 then .ok .cls else if fieldN op = 0xE then .ok .ret
      else .error (.unknownOpcode op) := by
  unfold decodeGroup0
  split <;> simp_all

theorem decodeGroup5_eq_ite (op : Word) :
    decodeGroup5 op =
      if fieldN op = 0x0 then .ok (.seReg (fieldX op) (fieldY op)) else .error (.unknownOpcode op) := by
  unfold decodeGroup5
  split <;> simp_all

theorem decodeGroup9_eq_ite (op : Word) :
    decodeGroup9 op =
      if fieldN op = 0x0 then .ok (.sneReg (fieldX op) (fieldY op)) else .error (.unknownOpcode op) := by
  unfold decodeGroup9
  split <;> simp_all

theorem decodeGroup8_eq_ite (op : Word) :
    decodeGroup8 op =
      if fieldN op = 0x0 then .ok (.ldReg (fieldX op) (fieldY op))
      else if fieldN op = 0x1 then .ok (.orReg (fieldX op) (fieldY op))
      else if fieldN op = 0x2 then .ok (.andReg (fieldX op) (fieldY op))
      else if fieldN op = 0x3 then .ok (.xorReg (fieldX op) (fieldY op))
      else if fieldN op = 0x4 then .ok (.addReg (fieldX op) (fieldY op))
      else if fieldN op = 0x5 then .ok (.sub (fieldX op) (fieldY op))
      else if fieldN op = 0x6 then .ok (.shr (fieldX op) (fieldY op))
      else if fieldN op = 0x7 then .ok (.subn (fieldX op) (fieldY op))
      else if fieldN op = 0xE then .ok (.shl (fieldX op) (fieldY op))
      else .error (.unknownOpcode op) := by
  unfold decodeGroup8
  split <;> simp_all

theorem decodeGroupE_eq_ite (op : Word) :
    decodeGroupE op =
      if fieldKk op = 0x9E then .ok (.skp (fieldX op)) else if fieldKk op = 0xA1 then .ok (.sknp (fieldX op))
      else .error (.unknownOpcode op) := by
  unfold decodeGroupE
  split <;> simp_all

theorem decodeGroupF_eq_ite (op : Word) :
    decodeGroupF op =
      if fieldKk op = 0x07 then .ok (.ldVxDt (fieldX op)) else if fieldKk op = 0x0A then .ok (.ldVxK (fieldX op))
      else if fieldKk op = 0x15 then .ok (.ldDtVx (fieldX op))
      else if fieldKk op = 0x18 then .ok (.ldStVx (fieldX op))
      else if fieldKk op = 0x1E then .ok (.addIVx (fieldX op))
      else if fieldKk op = 0x29 then .ok (.ldFVx (fieldX op))
      else if fieldKk op = 0x33 then .ok (.ldBVx (fieldX op))
      else if fieldKk op = 0x55 then .ok (.ldIVx (fieldX op))
      else if fieldKk op = 0x65 then .ok (.ldVxI (fieldX op))
      else .error (.unknownOpcode op) := by
  unfold decodeGroupF
  split <;> simp_all

/-- Settles O2: a group's test on the top nibble, then its selector as a chain of tests. -/
theorem decode_group_selectors : Obligations.Decode_group_selectors := fun op =>
  ⟨fun h => (decode_group0 op h).trans (decodeGroup0_eq_ite op),
   fun h => (decode_group5 op h).trans (decodeGroup5_eq_ite op),
   fun h => (decode_group9 op h).trans (decodeGroup9_eq_ite op),
   fun h => (decode_group8 op h).trans (decodeGroup8_eq_ite op),
   fun h => (decode_groupE op h).trans (decodeGroupE_eq_ite op),
   fun h => (decode_groupF op h).trans (decodeGroupF_eq_ite op)⟩

/-! ### What a word that decodes encodes to -/

theorem packNnn_of_fieldG {op : Word} {g : BitVec 4} (hg : fieldG op = g) : packNnn g (fieldNnn op) = op := by
  rw [← hg, packNnn_fields]

theorem packXkk_of_fieldG {op : Word} {g : BitVec 4} (hg : fieldG op = g) :
    packXkk g (fieldX op) (fieldKk op) = op := by
  rw [← hg, packXkk_fields]

theorem packXkk_of_selector {op : Word} {g : BitVec 4} {kk : Byte} (hg : fieldG op = g)
    (hk : fieldKk op = kk) : packXkk g (fieldX op) kk = op := by
  rw [← hg, ← hk, packXkk_fields]

theorem packXyn_of_selector {op : Word} {g n : BitVec 4} (hg : fieldG op = g) (hn : fieldN op = n) :
    packXyn g (fieldX op) (fieldY op) n = op := by
  rw [← hg, ← hn, packXyn_fields]

/-- The ten groups of one instruction each have no unknown word and ignore no bit (R43). -/
theorem decode_single_instruction_group (op : Word)
    (h : fieldG op ∈ [0x1#4, 0x2#4, 0x3#4, 0x4#4, 0x6#4, 0x7#4, 0xA#4, 0xB#4, 0xC#4, 0xD#4]) :
    ∃ i, decode op = .ok i ∧ encode i = op := by
  simp only [List.mem_cons, List.not_mem_nil, or_false] at h
  rcases h with h | h | h | h | h | h | h | h | h | h
  · exact ⟨.jp _, by simp only [decode, h], packNnn_of_fieldG h⟩
  · exact ⟨.call _, by simp only [decode, h], packNnn_of_fieldG h⟩
  · exact ⟨.seImm _ _, by simp only [decode, h], packXkk_of_fieldG h⟩
  · exact ⟨.sneImm _ _, by simp only [decode, h], packXkk_of_fieldG h⟩
  · exact ⟨.ldImm _ _, by simp only [decode, h], packXkk_of_fieldG h⟩
  · exact ⟨.addImm _ _, by simp only [decode, h], packXkk_of_fieldG h⟩
  · exact ⟨.ldI _, by simp only [decode, h], packNnn_of_fieldG h⟩
  · exact ⟨.jpV0 _, by simp only [decode, h], packNnn_of_fieldG h⟩
  · exact ⟨.rnd _ _, by simp only [decode, h], packXkk_of_fieldG h⟩
  · exact ⟨.drw (fieldX op) (fieldY op) (fieldN op).toNat, by simp only [decode, h],
      packXyn_of_selector h (by simp)⟩

/-- The top nibble names one of the six groups with a selector, or a group of one instruction. -/
theorem fieldG_cases (op : Word) :
    fieldG op = 0x0 ∨ fieldG op = 0x5 ∨ fieldG op = 0x8 ∨ fieldG op = 0x9 ∨ fieldG op = 0xE ∨
    fieldG op = 0xF ∨
    fieldG op ∈ [0x1#4, 0x2#4, 0x3#4, 0x4#4, 0x6#4, 0x7#4, 0xA#4, 0xB#4, 0xC#4, 0xD#4] := by
  generalize fieldG op = g
  revert g
  decide

theorem encode_of_decodeGroup5 {op : Word} {i : Instr} (h : decodeGroup5 op = .ok i)
    (hg : fieldG op = 0x5) : encode i = op := by
  unfold decodeGroup5 at h
  split at h <;> cases h
  exact packXyn_of_selector hg (by assumption)

theorem encode_of_decodeGroup8 {op : Word} {i : Instr} (h : decodeGroup8 op = .ok i)
    (hg : fieldG op = 0x8) : encode i = op := by
  unfold decodeGroup8 at h
  split at h <;> cases h <;> exact packXyn_of_selector hg (by assumption)

theorem encode_of_decodeGroup9 {op : Word} {i : Instr} (h : decodeGroup9 op = .ok i)
    (hg : fieldG op = 0x9) : encode i = op := by
  unfold decodeGroup9 at h
  split at h <;> cases h
  exact packXyn_of_selector hg (by assumption)

theorem encode_of_decodeGroupE {op : Word} {i : Instr} (h : decodeGroupE op = .ok i)
    (hg : fieldG op = 0xE) : encode i = op := by
  unfold decodeGroupE at h
  split at h <;> cases h <;> exact packXkk_of_selector hg (by assumption)

theorem encode_of_decodeGroupF {op : Word} {i : Instr} (h : decodeGroupF op = .ok i)
    (hg : fieldG op = 0xF) : encode i = op := by
  unfold decodeGroupF at h
  split at h <;> cases h <;> exact packXkk_of_selector hg (by assumption)

/-- Outside group 0 an instruction keeps every bit of its word, the ignored y of the shifts too (log 12). -/
theorem encode_of_decode {op : Word} {i : Instr} (h : decode op = .ok i) (hg : fieldG op ≠ 0x0) :
    encode i = op := by
  rcases fieldG_cases op with h0 | h5 | h8 | h9 | hE | hF | h1
  · exact absurd h0 hg
  · exact encode_of_decodeGroup5 ((decode_group5 op h5).symm.trans h) h5
  · exact encode_of_decodeGroup8 ((decode_group8 op h8).symm.trans h) h8
  · exact encode_of_decodeGroup9 ((decode_group9 op h9).symm.trans h) h9
  · exact encode_of_decodeGroupE ((decode_groupE op hE).symm.trans h) hE
  · exact encode_of_decodeGroupF ((decode_groupF op hF).symm.trans h) hF
  · obtain ⟨j, hj, he⟩ := decode_single_instruction_group op h1
    cases hj.symm.trans h
    exact he

theorem decodeGroup0_ok {op : Word} {i : Instr} (h : decodeGroup0 op = .ok i) : i = .cls ∨ i = .ret := by
  unfold decodeGroup0 at h
  split at h <;> cases h
  · exact .inl rfl
  · exact .inr rfl

/-- The instruction tells the group of its words, group 0 included. -/
theorem fieldG_encode_of_decode {op : Word} {i : Instr} (h : decode op = .ok i) :
    fieldG (encode i) = fieldG op := by
  by_cases hg : fieldG op = 0x0
  · rw [hg]
    rcases decodeGroup0_ok ((decode_group0 op hg).symm.trans h) with rfl | rfl <;> decide
  · rw [encode_of_decode h hg]

/-! ### Ignored bits (R50) -/

theorem decode_group0_congr {op op' : Word} (h : fieldG op = 0x0) (h' : fieldG op' = 0x0)
    (hn : fieldN op = fieldN op') (hsel : fieldN op = 0x0 ∨ fieldN op = 0xE) : decode op = decode op' := by
  rw [decode_group0 op h, decode_group0 op' h', decodeGroup0_eq_ite, decodeGroup0_eq_ite, ← hn]
  rcases hsel with e | e <;> simp [e]

/-- Outside group 0, decode is injective on the words it accepts. -/
theorem decode_inj {op op' : Word} {i : Instr} (hg : fieldG op ≠ 0x0) (h : decode op = .ok i)
    (h' : decode op' = .ok i) : op = op' := by
  have hgg : fieldG op' = fieldG op := (fieldG_encode_of_decode h').symm.trans (fieldG_encode_of_decode h)
  calc op = encode i := (encode_of_decode h hg).symm
    _ = op' := encode_of_decode h' (hgg ▸ hg)

/-- Settles O7: group 0 by its selector alone, the shifts because their meaning takes no y, and groups E and F
because a word there is the encoding of what it decodes to. -/
theorem ignored_bits_change_nothing : Obligations.Ignored_bits_change_nothing := by
  refine ⟨fun op op' => decode_group0_congr, fun x y y' s => ⟨rfl, rfl⟩, fun op op' i hg => ?_⟩
  have hne : fieldG op ≠ 0x0 := by rcases hg with e | e <;> rw [e] <;> decide
  exact decode_inj hne

/-! ### Illegal words (R51) -/

/-- A chain of tests answers no instruction when its first test fails and the rest answers none. -/
theorem forall_ite_ok_ne_ok {p : Prop} [Decidable p] (j : Instr) (r : Except DecodeError Instr) :
    (∀ i, (if p then .ok j else r) ≠ .ok i) ↔ ¬ p ∧ ∀ i, r ≠ .ok i := by
  by_cases hp : p <;> simp [hp]

theorem decodeGroup0_ne_ok_iff (op : Word) :
    (∀ i, decodeGroup0 op ≠ .ok i) ↔ fieldN op ≠ 0x0 ∧ fieldN op ≠ 0xE := by
  simp [decodeGroup0_eq_ite, forall_ite_ok_ne_ok]

theorem decodeGroup5_ne_ok_iff (op : Word) : (∀ i, decodeGroup5 op ≠ .ok i) ↔ fieldN op ≠ 0x0 := by
  simp [decodeGroup5_eq_ite, forall_ite_ok_ne_ok]

theorem decodeGroup9_ne_ok_iff (op : Word) : (∀ i, decodeGroup9 op ≠ .ok i) ↔ fieldN op ≠ 0x0 := by
  simp [decodeGroup9_eq_ite, forall_ite_ok_ne_ok]

theorem decodeGroup8_ne_ok_iff (op : Word) :
    (∀ i, decodeGroup8 op ≠ .ok i) ↔ fieldN op ∈ [0x8#4, 0x9#4, 0xA#4, 0xB#4, 0xC#4, 0xD#4, 0xF#4] := by
  simp only [decodeGroup8_eq_ite, forall_ite_ok_ne_ok, ne_eq, reduceCtorEq, not_false_eq_true, implies_true]
  generalize fieldN op = n
  revert n
  decide

theorem decodeGroupE_ne_ok_iff (op : Word) :
    (∀ i, decodeGroupE op ≠ .ok i) ↔ fieldKk op ∉ [0x9E#8, 0xA1#8] := by
  simp [decodeGroupE_eq_ite, forall_ite_ok_ne_ok]

theorem decodeGroupF_ne_ok_iff (op : Word) :
    (∀ i, decodeGroupF op ≠ .ok i) ↔
      fieldKk op ∉ [0x07#8, 0x0A#8, 0x15#8, 0x18#8, 0x1E#8, 0x29#8, 0x33#8, 0x55#8, 0x65#8] := by
  simp [decodeGroupF_eq_ite, forall_ite_ok_ne_ok]

end Sys2Proof
end

section
/-! PROOFS. The step (30_encoding.md §3): the fetch, the illegal word, the decoded instruction and the FAULTED
engine (R39, R51, R54 to R57). -/

namespace Sys2Proof.Machine

/-! ### Illegal words at the fetch (R51) -/

theorem step_illegal {s : State} {op : Word} (hl : s.live) (hf : s.fetches op)
    (hd : ∀ i, decode op ≠ .ok i) :
    step s = .next { s with status := .faulted (.unknownOpcode op s.pc) } := by
  cases e : decode op with
  | ok i => exact absurd e (hd i)
  | error r => exact step_decode_error s op r hl hf e

/-- Settles O3: each of the six groups with a selector leaves unknown what it does not select, the ten others
leave nothing unknown. -/
theorem illegal_words_are_those_listed : Obligations.Illegal_words_are_those_listed := by
  refine fun op => ⟨?_, fun s => step_illegal⟩
  rcases fieldG_cases op with h | h | h | h | h | h | h
  · rw [decode_group0 op h, decodeGroup0_ne_ok_iff]; simp [h]
  · rw [decode_group5 op h, decodeGroup5_ne_ok_iff]; simp [h]
  · rw [decode_group8 op h, decodeGroup8_ne_ok_iff]; simp [h]
  · rw [decode_group9 op h, decodeGroup9_ne_ok_iff]; simp [h]
  · rw [decode_groupE op h, decodeGroupE_ne_ok_iff]; simp [h]
  · rw [decode_groupF op h, decodeGroupF_ne_ok_iff]; simp [h]
  · obtain ⟨i, hi, _⟩ := decode_single_instruction_group op h
    refine iff_of_false ?_ (fun hne => hne i hi)
    rintro (⟨hg, _⟩ | ⟨hg | hg, _⟩ | ⟨hg, _⟩ | ⟨hg, _⟩ | ⟨hg, _⟩) <;> simp [hg] at h

/-! ### Fetch (R39) -/

/-- Settles O9: the fetch fault is the step's first case, and the word's value is that of its two bytes. -/
theorem fetch_reads_two_bytes_high_first : Obligations.Fetch_reads_two_bytes_high_first :=
  fun s => ⟨step_fetch_error s, fun h => ⟨_, fetch_ok s h, wordOfBytes_toNat _ _⟩⟩

/-! ### The decoded instruction (R54, R55, R57) -/

/-- Settles O8: the step's execute case, with the end of a step on a live and on a FAULTED state. -/
theorem step_runs_the_decoded_instruction : Obligations.Step_runs_the_decoded_instruction := by
  intro s i hl hp hd
  have hstep : step s = completeStep (exec i s.advancePc) := step_exec s _ i hl (fetch_ok s hp) hd
  refine ⟨hstep, fun t ht htl => ?_, fun t f ht htf => ?_⟩
  · calc step s = completeStep (.next t) := hstep.trans (congrArg completeStep ht)
      _ = .next (endStep t) := rfl
      _ = _ := congrArg _ (endStep_live t htl)
  · calc step s = completeStep (.next t) := hstep.trans (congrArg completeStep ht)
      _ = .next (endStep t) := rfl
      _ = .next t := congrArg _ (endStep_faulted t f htf)

/-! ### What a step can answer -/

/-- Executing an instruction of a live engine completes in a live state, which the end of a step follows, or
leaves the state of before the step but for the status. -/
theorem completeStep_exec_cases (i : Instr) (s : State) (hl : s.live) :
    (∃ u, exec i s.advancePc = .next u ∧ u.live ∧ completeStep (exec i s.advancePc) = .next (endStep u)) ∨
    (∃ f, completeStep (exec i s.advancePc) = .next { s with status := .faulted f }) := by
  rcases exec_completesOrFaults i s.advancePc with ⟨u, hu, hs, _⟩ | ⟨f, hf, hr⟩
  · refine .inl ⟨u, hu, ?_, by rw [hu]; rfl⟩
    rw [State.live, hs]
    exact hl
  · refine .inr ⟨f, ?_⟩
    rw [hr, takeFault_advancePc f s hf]
    exact congrArg _ (endStep_faulted _ f rfl)

/-- A step that answers a next state was taken by a live engine; it raised a fault, which changes the status
alone, or ran the decoded instruction to its end. -/
theorem step_next_cases {s t : State} (h : step s = .next t) :
    s.live ∧ ((∃ f, t = { s with status := .faulted f }) ∨
      ∃ i u, s.runs i ∧ exec i s.advancePc = .next u ∧ u.live ∧ t = endStep u) := by
  have hl : s.live := by
    cases hs : s.status with
    | faulted f => cases (step_faulted s f hs).symm.trans h
    | ready => simp [State.live, hs, Status.isFaulted]
    | running => simp [State.live, hs, Status.isFaulted]
  refine ⟨hl, ?_⟩
  by_cases hp : s.pc.toNat ≤ 4094
  · have hf := fetch_ok s hp
    cases hd : decode (wordOfBytes (s.readByte s.pc.toNat) (s.readByte (s.pc.toNat + 1))) with
    | error e =>
      cases (step_decode_error s _ e hl hf hd).symm.trans h
      exact .inl ⟨_, rfl⟩
    | ok i =>
      rw [step_exec s _ i hl hf hd] at h
      rcases completeStep_exec_cases i s hl with ⟨u, hu, hul, hr⟩ | ⟨f, hr⟩
      · cases hr.symm.trans h
        exact .inr ⟨i, u, ⟨hl, _, hf, hd⟩, hu, hul, rfl⟩
      · cases hr.symm.trans h
        exact .inl ⟨f, rfl⟩
  · cases (step_fetch_error s hl (Nat.not_le.1 hp)).symm.trans h
    exact .inl ⟨_, rfl⟩

theorem endStep_status_of_live (u : State) (h : u.live) : (endStep u).status = .running := by
  rw [endStep_live u h]

/-! ### The host's operations and the status (R56, R57, R108) -/

theorem hostLoad_of_not_ready (bytes : List Byte) (s : State) (h : s.status ≠ .ready) :
    hostLoad bytes s = (s, .notAdmitted) := by
  unfold hostLoad
  split
  case h_1 hr => exact absurd hr h
  case h_2 | h_3 => rfl

theorem hostStep_faulted (s : State) (f : Fault) (h : s.status = .faulted f) :
    hostStep s = (s, .fault f) := by
  rw [hostStep, step_faulted s f h]

theorem hostSetKey_status (index : Nat) (pressed : Bool) (s : State) :
    (hostSetKey index pressed s).1.status = s.status := by
  unfold hostSetKey; split <;> rfl

theorem hostTickTimers_status (s : State) : (hostTickTimers s).1.status = s.status := by
  unfold hostTickTimers; split <;> rfl

/-- Settles O13: a step whose answer is live ended with `endStep`, which leaves RUNNING, and load wants READY. -/
theorem completed_step_leaves_running : Obligations.Completed_step_leaves_running := by
  intro s t h htl
  have hrun : t.status = .running := by
    obtain ⟨_, ⟨f, rfl⟩ | ⟨i, u, _, _, hul, rfl⟩⟩ := step_next_cases h
    · cases htl
    · exact endStep_status_of_live u hul
  exact ⟨hrun, fun bytes => hostLoad_of_not_ready bytes t (by simp [hrun])⟩

/-- Settles O10: what each host operation does to the status of a FAULTED engine. -/
theorem faulted_engine_is_stuck : Obligations.Faulted_engine_is_stuck := by
  intro s f h
  refine ⟨step_faulted s f h, hostStep_faulted s f h, fun o ho => ?_, rfl⟩
  cases o with
  | reset => exact absurd rfl ho
  | load bytes => rw [hostCall, hostLoad_of_not_ready bytes s (by simp [h])]; exact h
  | step => rw [hostCall, hostStep_faulted s f h]; exact h
  | setKey index pressed => exact (hostSetKey_status index pressed s).trans h
  | tickTimers => exact (hostTickTimers_status s).trans h
  | frameDirty | clearFrameDirty | framebuffer | delayTimer | soundTimer | status => exact h

end Sys2Proof.Machine
end

section
/-! PROOFS. Control flow (40_control_flow.md): the jumps, the call and the return, and the skips on register
comparisons (R58 to R65). -/

namespace Sys2Proof

/-! ### The groups of one control-flow instruction each (R43) -/

theorem decode_jp (op : Word) (h : fieldG op = 0x1) : decode op = .ok (.jp (fieldNnn op)) := by
  simp [decode, h]

theorem decode_call (op : Word) (h : fieldG op = 0x2) : decode op = .ok (.call (fieldNnn op)) := by
  simp [decode, h]

theorem decode_seImm (op : Word) (h : fieldG op = 0x3) :
    decode op = .ok (.seImm (fieldX op) (fieldKk op)) := by
  simp [decode, h]

theorem decode_sneImm (op : Word) (h : fieldG op = 0x4) :
    decode op = .ok (.sneImm (fieldX op) (fieldKk op)) := by
  simp [decode, h]

theorem decode_jpV0 (op : Word) (h : fieldG op = 0xB) : decode op = .ok (.jpV0 (fieldNnn op)) := by
  simp [decode, h]

end Sys2Proof

namespace Sys2Proof.Machine

/-! ### The words of a row (R40, R49) -/

/-- A row that fixes the top nibble alone: it is enough to decode the words of its group. -/
theorem encodes_of_fieldG {value : Word} {f : Word → Instr} (g : BitVec 4) (hv : fieldG value = g)
    (h : ∀ op, fieldG op = g → decode op = .ok (f op)) : Encodes 0xF000 value f :=
  fun op hm => h op ((fieldG_of_mask_g op value hm).trans hv)

/-- A row that fixes the top and the low nibble. -/
theorem encodes_of_fieldG_fieldN {value : Word} {f : Word → Instr} (g n : BitVec 4) (hg : fieldG value = g)
    (hn : fieldN value = n) (h : ∀ op, fieldG op = g → fieldN op = n → decode op = .ok (f op)) :
    Encodes 0xF00F value f :=
  fun op hm => h op ((fieldG_of_mask_g_n op value hm).trans hg) ((fieldN_of_mask_g_n op value hm).trans hn)

/-! ### Jumps (R59, R61) -/

/-- The target of JP V0 as a number: the sum stays below 2^16. -/
theorem zextAddr_add_zextByte_toNat (nnn : BitVec 12) (b : Byte) :
    (zextAddr nnn + zextByte b).toNat = nnn.toNat + b.toNat := by
  have hn := nnn.isLt
  have hb := b.isLt
  rw [BitVec.toNat_add, zextAddr_toNat, zextByte_toNat, Nat.mod_eq_of_lt (by omega)]

theorem setsPc_jp (nnn : BitVec 12) (s : State) : SetsPc (.jp nnn) s (zextAddr nnn) := rfl

theorem setsPc_jpV0 (nnn : BitVec 12) (s : State) :
    SetsPc (.jpV0 nnn) s (zextAddr nnn + zextByte (s.getV 0)) := rfl

/-- A jump past the last fetchable address is found out by the next fetch (R39). -/
theorem fetch_at_error (s : State) (a : Word) (h : 4094 < a.toNat) :
    fetch { s with pc := a } = .error (.fetchOutOfRange a) :=
  fetch_error { s with pc := a } h

/-- Settles O25: the target each jump writes, its value as a number, and the fetch's range check at it. -/
theorem jumps_set_pc_only : Obligations.Jumps_set_pc_only := by
  refine ⟨encodes_of_fieldG 0x1 (by decide) decode_jp, encodes_of_fieldG 0xB (by decide) decode_jpV0,
    fun nnn s => ⟨?_, ?_⟩⟩
  · have ha := zextAddr_toNat nnn
    exact ⟨_, setsPc_jp nnn s, ha, fun h => fetch_at_error s _ (ha ▸ h)⟩
  · have ha := zextAddr_add_zextByte_toNat nnn (s.getV 0)
    exact ⟨_, setsPc_jpV0 nnn s, ha, fun h => fetch_at_error s _ (ha ▸ h)⟩

/-! ### Call and return (R58, R60) -/

/-- A meaning that takes a fault naming the executing instruction raises it (R94 to R96). -/
theorem raises_of_takeFault {i : Instr} {s : State} {f : Fault} (h : exec i s = takeFault f s)
    (hf : f.faultPc = s.insnAddr) : Raises i s f := by
  rw [Raises, h, takeFault, hf, State.insnAddr_eq_executingAt]

theorem exec_call_ok (nnn : BitVec 12) (s : State) (h : s.sp.val < 16) :
    exec (.call nnn) s = .next { s with
      stack := s.stack.set s.sp.val s.pc, sp := ⟨s.sp.val + 1, by omega⟩, pc := zextAddr nnn } := by
  rw [exec, execCall, pushReturn_ok s s.pc h]

theorem raises_call (nnn : BitVec 12) (s : State) (h : s.sp = 16) :
    Raises (.call nnn) s (.stackOverflow s.insnAddr) :=
  raises_of_takeFault (by rw [exec, execCall, pushReturn_error s s.pc h]) rfl

/-- Settles O26: the pushed entry by what a vector reads after one entry is set, the fault by the full stack. -/
theorem call_pushes_and_jumps : Obligations.Call_pushes_and_jumps := by
  refine ⟨encodes_of_fieldG 0x2 (by decide) decode_call,
    fun nnn s => ⟨fun h => ?_, raises_call nnn s⟩⟩
  refine ⟨_, exec_call_ok nnn s h, rfl, fun k => ?_, rfl, zextAddr_toNat nnn⟩
  simp only [Vector.getElem_set, eq_comm]

theorem exec_ret_ok (s : State) (k : Fin 16) (h : s.sp.val = k.val + 1) :
    exec .ret s = .next { s with sp := k.castSucc, pc := s.stack[k.val] } := by
  have hk : s.sp.val - 1 = k.val := by omega
  rw [exec, execRet, popReturn_ok s (by omega), orFault_ok]
  simp only [hk]
  rfl

theorem raises_ret (s : State) (h : s.sp = 0) : Raises .ret s (.stackUnderflow s.insnAddr) :=
  raises_of_takeFault (by rw [exec, execRet, popReturn_error s h, orFault_error]) rfl

/-- Settles O27: the pop at sp = k + 1 reads entry k and writes none, the fault by the empty stack. -/
theorem ret_pops_pc : Obligations.Ret_pops_pc := by
  refine ⟨encodes_of_fieldG_fieldN 0x0 0xE (by decide) (by decide) fun op hg hn => ?_,
    fun s => ⟨fun k h => ⟨_, exec_ret_ok s k h, rfl, rfl⟩, raises_ret s⟩⟩
  simp [decode_group0 op hg, decodeGroup0_eq_ite, hn]

/-! ### Skips (R62 to R65) -/

/-- A meaning that skips on a test sets pc by what the test decides. -/
theorem setsPc_of_skipIf {i : Instr} {s : State} {c : Bool} {p : Prop} [Decidable p]
    (h : exec i s = .next (s.skipIf c)) (hc : c = true ↔ p) :
    SetsPc i s (if p then s.pc + 2 else s.pc) := by
  rw [SetsPc, h, State.skipIf_eq]
  simp only [hc]

theorem setsPc_seImm (x : Reg) (kk : Byte) (s : State) :
    SetsPc (.seImm x kk) s (if s.getV x = kk then s.pc + 2 else s.pc) :=
  setsPc_of_skipIf rfl beq_iff_eq

theorem setsPc_sneImm (x : Reg) (kk : Byte) (s : State) :
    SetsPc (.sneImm x kk) s (if s.getV x ≠ kk then s.pc + 2 else s.pc) :=
  setsPc_of_skipIf rfl bne_iff_ne

theorem setsPc_seReg (x y : Reg) (s : State) :
    SetsPc (.seReg x y) s (if s.getV x = s.getV y then s.pc + 2 else s.pc) :=
  setsPc_of_skipIf rfl beq_iff_eq

theorem setsPc_sneReg (x y : Reg) (s : State) :
    SetsPc (.sneReg x y) s (if s.getV x ≠ s.getV y then s.pc + 2 else s.pc) :=
  setsPc_of_skipIf rfl bne_iff_ne

/-- Settles O29: each skip by its test, a register against itself by the same test decided, and the fetch's
range check for where a skip leads. -/
theorem skips_on_register_comparisons : Obligations.Skips_on_register_comparisons := by
  refine ⟨encodes_of_fieldG 0x3 (by decide) decode_seImm,
    encodes_of_fieldG 0x4 (by decide) decode_sneImm,
    encodes_of_fieldG_fieldN 0x5 0x0 (by decide) (by decide) fun op hg hn => ?_,
    encodes_of_fieldG_fieldN 0x9 0x0 (by decide) (by decide) fun op hg hn => ?_,
    fun x y kk s => ?_, fetch_error⟩
  · rw [decode_group5 op hg, decodeGroup5_eq_ite, if_pos hn]
  · rw [decode_group9 op hg, decodeGroup9_eq_ite, if_pos hn]
  · have hse : SetsPc (.seReg x x) s (s.pc + 2) := by simpa using setsPc_seReg x x s
    have hsne : SetsPc (.sneReg x x) s s.pc := by simpa using setsPc_sneReg x x s
    exact ⟨setsPc_seImm x kk s, setsPc_sneImm x kk s, setsPc_seReg x y s, setsPc_sneReg x y s, hse, hsne⟩

end Sys2Proof.Machine
end

section
/-! PROOFS. Arithmetic and logic (41_alu.md): the instructions that write V[x] alone and those that write V[x] and
VF, in both orders of P_FLAG_ORDER (R66 to R77). -/

namespace Sys2Proof

/-! ### The words of the family (R43, R46) -/

theorem decode_ldImm (op : Word) (h : fieldG op = 0x6) :
    decode op = .ok (.ldImm (fieldX op) (fieldKk op)) := by
  simp [decode, h]

theorem decode_addImm (op : Word) (h : fieldG op = 0x7) :
    decode op = .ok (.addImm (fieldX op) (fieldKk op)) := by
  simp [decode, h]

end Sys2Proof

namespace Sys2Proof.Machine

/-- A row of group 8: it is enough to say what the group's selector answers at the row's low nibble. -/
theorem encodes_of_decodeGroup8 {value : Word} {f : Word → Instr} (n : BitVec 4) (hg : fieldG value = 0x8)
    (hn : fieldN value = n) (h : ∀ op, fieldN op = n → decodeGroup8 op = .ok (f op)) :
    Encodes 0xF00F value f :=
  encodes_of_fieldG_fieldN 0x8 n hg hn fun op hgo hno => (decode_group8 op hgo).trans (h op hno)

/-! ### V[x] alone (R67 to R72) -/

/-- A meaning that writes one register sets that register and nothing else. -/
theorem setsReg_of_setV {i : Instr} {s : State} {x : Reg} {b : Byte} (h : exec i s = .next (s.setV x b)) :
    SetsReg i s x b :=
  ⟨_, h, State.getV_setV_same s x b, fun r hr => State.getV_setV_ne s x r b hr, rfl⟩

/-- Settles O30: each meaning is one register write, and the sum of 7xkk is that of the numbers modulo 256. -/
theorem loads_immediate_add_and_logic_write_only_Vx : Obligations.Loads_immediate_add_and_logic_write_only_Vx := by
  refine ⟨encodes_of_fieldG 0x6 (by decide) decode_ldImm, encodes_of_fieldG 0x7 (by decide) decode_addImm,
    encodes_of_decodeGroup8 0x0 (by decide) (by decide) fun op hn => by simp [decodeGroup8_eq_ite, hn],
    encodes_of_decodeGroup8 0x1 (by decide) (by decide) fun op hn => by simp [decodeGroup8_eq_ite, hn],
    encodes_of_decodeGroup8 0x2 (by decide) (by decide) fun op hn => by simp [decodeGroup8_eq_ite, hn],
    encodes_of_decodeGroup8 0x3 (by decide) (by decide) fun op hn => by simp [decodeGroup8_eq_ite, hn],
    fun x y kk s => ?_⟩
  rw [← byte_add_eq]
  exact ⟨setsReg_of_setV rfl, setsReg_of_setV rfl, setsReg_of_setV rfl, setsReg_of_setV rfl,
    setsReg_of_setV rfl, setsReg_of_setV rfl⟩

/-! ### V[x] and VF after the two writes (R66) -/

section

variable {x : Reg} {flag : Byte} {result : State → Byte} {s : State}

theorem writeWithFlag_of_sequential (h : s.cfg.flagOrder = .sequential) :
    writeWithFlag x flag result s = (s.setV vf flag).setV x (result (s.setV vf flag)) := by
  simp only [writeWithFlag, h]

theorem writeWithFlag_of_flagLast (h : s.cfg.flagOrder = .flagLast) :
    writeWithFlag x flag result s = (s.setV x (result s)).setV vf flag := by
  simp only [writeWithFlag, h]

/-- Under SEQUENTIAL V[x] is written last: it keeps its result, computed after the VF write. -/
theorem getV_writeWithFlag_of_sequential (h : s.cfg.flagOrder = .sequential) :
    (writeWithFlag x flag result s).getV x = result (s.setV vf flag) := by
  rw [writeWithFlag_of_sequential h, State.getV_setV_same]

/-- Under FLAG_LAST VF is written last: it keeps the flag. -/
theorem getV_vf_writeWithFlag_of_flagLast (h : s.cfg.flagOrder = .flagLast) :
    (writeWithFlag x flag result s).getV vf = flag := by
  rw [writeWithFlag_of_flagLast h, State.getV_setV_same]

/-- Under FLAG_LAST a V[x] other than VF gets the result computed on entry. -/
theorem getV_writeWithFlag_of_flagLast (h : s.cfg.flagOrder = .flagLast) (hx : x ≠ vf) :
    (writeWithFlag x flag result s).getV x = result s := by
  rw [writeWithFlag_of_flagLast h, State.getV_setV_ne _ _ _ _ hx, State.getV_setV_same]

/-- With x other than 0xF, VF holds the flag in both orders. -/
theorem getV_vf_writeWithFlag (hx : x ≠ vf) : (writeWithFlag x flag result s).getV vf = flag := by
  cases h : s.cfg.flagOrder with
  | sequential =>
    rw [writeWithFlag_of_sequential h, State.getV_setV_ne _ _ _ _ hx.symm, State.getV_setV_same]
  | flagLast => exact getV_vf_writeWithFlag_of_flagLast h

/-- With x other than 0xF, a result that does not depend on VF is in V[x] in both orders. -/
theorem getV_writeWithFlag (hx : x ≠ vf) (hr : result (s.setV vf flag) = result s) :
    (writeWithFlag x flag result s).getV x = result s := by
  cases h : s.cfg.flagOrder with
  | sequential => rw [getV_writeWithFlag_of_sequential h, hr]
  | flagLast => exact getV_writeWithFlag_of_flagLast h hx

end

/-- The cases of x against 0xF and of the order, for a meaning that writes `f V[x]` to V[x] and a flag
to VF. -/
theorem exec_unary_with_flag {i : Instr} {x : Reg} {s : State} {flag : Byte} (f : Byte → Byte)
    (h : exec i s = .next (writeWithFlag x flag (fun t => f (t.getV x)) s)) :
    ∃ t, exec i s = .next t ∧ t = { s with v := t.v } ∧
      (∀ r, r ≠ x → r ≠ vf → t.getV r = s.getV r) ∧
      (x ≠ vf → t.getV x = f (s.getV x) ∧ t.getV vf = flag) ∧
      (x = vf → s.cfg.flagOrder = .sequential → t.getV vf = f flag) ∧
      (x = vf → s.cfg.flagOrder = .flagLast → t.getV vf = flag) := by
  refine ⟨_, h, writeWithFlag_eq _ _ _ s, fun r hx hv => writeWithFlag_other x r _ _ s hx hv,
    fun hx => ⟨getV_writeWithFlag hx ?_, getV_vf_writeWithFlag hx⟩, ?_,
    fun _ ho => getV_vf_writeWithFlag_of_flagLast ho⟩
  · rw [State.getV_setV_ne _ _ _ _ hx]
  · rintro rfl ho
    rw [getV_writeWithFlag_of_sequential ho, State.getV_setV_same]

/-! ### 8xy4 (R73) -/

theorem b2u_decide (p : Prop) [Decidable p] : b2u (decide p) = if p then 1 else 0 := by
  simp [b2u]

/-- Settles O31: the sum is taken on entry in both orders, so the result does not see the VF write. -/
theorem add_with_carry_in_both_flag_orders : Obligations.Add_with_carry_in_both_flag_orders := by
  refine ⟨encodes_of_decodeGroup8 0x4 (by decide) (by decide) fun op hn => by simp [decodeGroup8_eq_ite, hn],
    fun x y s => ?_⟩
  simp only [← byte_add_eq, ← b2u_decide]
  exact exec_unary_with_flag (fun _ => s.getV x + s.getV y) rfl

/-! ### 8xy5 and 8xy7 (R74, R76) -/

/-- The cases of x and y against 0xF and of the order, for a meaning that writes `f V[x] V[y]` to V[x] and a flag
to VF, where the flag of a register against itself is 0 and `f` keeps 0. -/
theorem exec_binary_with_flag {i : Instr} {x y : Reg} {s : State} {flag : Byte} (f : Byte → Byte → Byte)
    (h : exec i s = .next (writeWithFlag x flag (fun t => f (t.getV x) (t.getV y)) s))
    (h0 : x = y → flag = 0) (hf : f 0 0 = 0) :
    ∃ t, exec i s = .next t ∧ t = { s with v := t.v } ∧
      (∀ r, r ≠ x → r ≠ vf → t.getV r = s.getV r) ∧
      (x ≠ vf → y ≠ vf → t.getV x = f (s.getV x) (s.getV y) ∧ t.getV vf = flag) ∧
      (s.cfg.flagOrder = .sequential →
        (x = vf → y ≠ vf → t.getV vf = f flag (s.getV y)) ∧
        (x ≠ vf → y = vf → t.getV x = f (s.getV x) flag ∧ t.getV vf = flag)) ∧
      (s.cfg.flagOrder = .flagLast →
        (x = vf → y ≠ vf → t.getV vf = flag) ∧
        (x ≠ vf → y = vf → t.getV x = f (s.getV x) (s.getV y) ∧ t.getV vf = flag)) ∧
      (x = vf → y = vf → t.getV vf = 0) := by
  refine ⟨_, h, writeWithFlag_eq _ _ _ s, fun r hx hv => writeWithFlag_other x r _ _ s hx hv,
    fun hx hy => ⟨getV_writeWithFlag hx ?_, getV_vf_writeWithFlag hx⟩, fun ho => ⟨?_, ?_⟩,
    fun ho => ⟨fun _ _ => getV_vf_writeWithFlag_of_flagLast ho,
      fun hx _ => ⟨getV_writeWithFlag_of_flagLast ho hx, getV_vf_writeWithFlag hx⟩⟩, ?_⟩
  · rw [State.getV_setV_ne _ _ _ _ hx, State.getV_setV_ne _ _ _ _ hy]
  · rintro rfl hy
    rw [getV_writeWithFlag_of_sequential ho, State.getV_setV_same, State.getV_setV_ne _ _ _ _ hy]
  · rintro hx rfl
    rw [getV_writeWithFlag_of_sequential ho, State.getV_setV_same, State.getV_setV_ne _ _ _ _ hx]
    exact ⟨rfl, getV_vf_writeWithFlag hx⟩
  · rintro rfl rfl
    cases ho : s.cfg.flagOrder with
    | sequential => rw [getV_writeWithFlag_of_sequential ho, State.getV_setV_same, h0 rfl, hf]
    | flagLast => rw [getV_vf_writeWithFlag_of_flagLast ho, h0 rfl]

/-- No byte is strictly greater than itself. -/
theorem greaterFlag_self (a : Byte) : greaterFlag a a = 0 := by
  simp [greaterFlag, b2u_false]

/-- Settles O32: the difference V[x] - V[y] as the result. -/
theorem sub_in_both_flag_orders : Obligations.Sub_in_both_flag_orders := by
  refine ⟨encodes_of_decodeGroup8 0x5 (by decide) (by decide) fun op hn => by simp [decodeGroup8_eq_ite, hn],
    fun x y s => ?_⟩
  simp only [← byte_sub_eq, ← b2u_decide]
  exact exec_binary_with_flag (fun a b => a - b) rfl (by rintro rfl; exact greaterFlag_self _) rfl

/-- Settles O33: the difference V[y] - V[x] as the result. -/
theorem subn_in_both_flag_orders : Obligations.Subn_in_both_flag_orders := by
  refine ⟨encodes_of_decodeGroup8 0x7 (by decide) (by decide) fun op hn => by simp [decodeGroup8_eq_ite, hn],
    fun x y s => ?_⟩
  simp only [← byte_sub_eq, ← b2u_decide]
  exact exec_binary_with_flag (fun a b => b - a) rfl (by rintro rfl; exact greaterFlag_self _) rfl

/-! ### 8xy6 and 8xyE (R75, R77) -/

theorem byte_shiftRight_one_toNat (a : Byte) : (a >>> 1).toNat = a.toNat / 2 := by
  rw [BitVec.toNat_ushiftRight, Nat.shiftRight_eq_div_pow, Nat.pow_one]

theorem byte_shiftLeft_one_toNat (a : Byte) : (a <<< 1).toNat = a.toNat * 2 % 256 := by
  rw [BitVec.toNat_shiftLeft, Nat.shiftLeft_eq, Nat.pow_one]

/-- The bit shifted out to the right is gone after one more shift. -/
theorem lowBit_shiftRight_one (a : Byte) : lowBit a >>> 1 = 0 := by
  apply BitVec.eq_of_toNat_eq
  rw [byte_shiftRight_one_toNat, lowBit_toNat]
  exact Nat.div_eq_of_lt (Nat.mod_lt _ (by decide))

theorem highBit_shiftLeft_one_toNat (a : Byte) : (highBit a <<< 1).toNat = a.toNat / 128 * 2 := by
  have ha := a.isLt
  rw [byte_shiftLeft_one_toNat, highBit_toNat]
  omega

/-- Settles O34: one shift and the bit it shifts out, as numbers. -/
theorem shifts_in_both_flag_orders : Obligations.Shifts_in_both_flag_orders := by
  refine ⟨encodes_of_decodeGroup8 0x6 (by decide) (by decide) fun op hn => by simp [decodeGroup8_eq_ite, hn],
    encodes_of_decodeGroup8 0xE (by decide) (by decide) fun op hn => by simp [decodeGroup8_eq_ite, hn],
    fun x y s => ⟨?_, ?_⟩⟩
  · obtain ⟨t, ht, hframe, hother, hne, hseq, hlast⟩ :=
      exec_unary_with_flag (i := .shr x y) (x := x) (s := s) (fun a => a >>> 1) rfl
    refine ⟨t, ht, hframe, hother, fun hx => ?_, fun hx ho => ?_, fun hx ho => ?_⟩
    · obtain ⟨hv, hf⟩ := hne hx
      exact ⟨by rw [hv, byte_shiftRight_one_toNat], by rw [hf, lowBit_toNat]⟩
    · rw [hseq hx ho, lowBit_shiftRight_one]
    · rw [hlast hx ho, lowBit_toNat]
  · obtain ⟨t, ht, hframe, hother, hne, hseq, hlast⟩ :=
      exec_unary_with_flag (i := .shl x y) (x := x) (s := s) (fun a => a <<< 1) rfl
    refine ⟨t, ht, hframe, hother, fun hx => ?_, fun hx ho => ?_, fun hx ho => ?_⟩
    · obtain ⟨hv, hf⟩ := hne hx
      exact ⟨by rw [hv, byte_shiftLeft_one_toNat], by rw [hf, highBit_toNat]⟩
    · rw [hseq hx ho, highBit_shiftLeft_one_toNat]
    · rw [hlast hx ho, highBit_toNat]

end Sys2Proof.Machine
end

section
/-! PROOFS. Index register and memory transfers (42_index_memory.md): the writes of I, the block stores and the
block load at I (R79 to R84). -/

namespace Sys2Proof

/-- Group A is one instruction (R43). -/
theorem decode_ldI (op : Word) (h : fieldG op = 0xA) : decode op = .ok (.ldI (fieldNnn op)) := by
  simp [decode, h]

end Sys2Proof

namespace Sys2Proof.Machine

/-! ### The words of a row that fixes the top nibble and the low byte (R47, R48) -/

theorem encodes_of_fieldG_fieldKk {value : Word} {f : Word → Instr} (g : BitVec 4) (kk : Byte)
    (hg : fieldG value = g) (hk : fieldKk value = kk)
    (h : ∀ op, fieldG op = g → fieldKk op = kk → decode op = .ok (f op)) : Encodes 0xF0FF value f :=
  fun op hm => h op ((fieldG_of_mask_g_kk op value hm).trans hg) ((fieldKk_of_mask_g_kk op value hm).trans hk)

/-- A row of group F: it is enough to say what the group's selector answers at the row's low byte. -/
theorem encodes_of_decodeGroupF {value : Word} {f : Word → Instr} (kk : Byte) (hg : fieldG value = 0xF)
    (hk : fieldKk value = kk) (h : ∀ op, fieldKk op = kk → decodeGroupF op = .ok (f op)) :
    Encodes 0xF0FF value f :=
  encodes_of_fieldG_fieldKk 0xF kk hg hk fun op hgo hko => (decode_groupF op hgo).trans (h op hko)

/-! ### The index register (R79 to R81) -/

/-- The sum of Fx1E wraps at 16 bits and nowhere else (D5). -/
theorem index_add_zextByte_toNat (a : Word) (b : Byte) :
    (a + zextByte b).toNat = (a.toNat + b.toNat) % 65536 := by
  rw [BitVec.toNat_add, zextByte_toNat]

/-- Settles O37: each meaning is one write of I, and the value written as a number. -/
theorem index_register_writes : Obligations.Index_register_writes :=
  ⟨encodes_of_fieldG 0xA (by decide) decode_ldI,
   encodes_of_decodeGroupF 0x1E (by decide) (by decide) fun op hk => by simp [decodeGroupF_eq_ite, hk],
   encodes_of_decodeGroupF 0x29 (by decide) (by decide) fun op hk => by simp [decodeGroupF_eq_ite, hk],
   fun nnn x s =>
    ⟨⟨_, rfl, zextAddr_toNat nnn⟩, ⟨_, rfl, index_add_zextByte_toNat s.i (s.getV x)⟩,
     ⟨_, rfl, glyphAddr_toNat (s.getV x)⟩⟩⟩

/-! ### The addresses of a block at I (R28) -/

/-- The effective addresses are consecutive and do not wrap. -/
theorem State.effAddr_eq_add (s : State) (k : Nat) : s.effAddr k = s.effAddr 0 + k := rfl

/-- The first address of a block past the end is its first byte, or 4096 when the block starts inside. -/
theorem State.max_effAddr_of_first_out_of_range {s : State} {k : Nat}
    (hbefore : ∀ j, j < k → s.effAddr j ≤ 4095) (hk : 4095 < s.effAddr k) :
    max (s.effAddr 0) 4096 = s.effAddr k := by
  cases k with
  | zero => exact Nat.max_eq_left hk
  | succ k =>
    have hlast := hbefore k k.lt_succ_self
    have ek := s.effAddr_eq_add k
    have ek' := s.effAddr_eq_add (k + 1)
    omega

/-! ### Block stores (R82, R83, R95) -/

section

variable {i : Instr} {s : State} {bs : List Byte}

/-- A meaning that stores a non-empty block at I, with every byte of the block inside memory and above the font:
the block is stored, and every byte outside it stays. -/
theorem exec_store_block {n : Nat} (h : exec i s = orFault (storeBytes s (s.effAddr 0) bs) s)
    (hlen : bs.length = n + 1) (hlo : 0x50 ≤ s.effAddr 0) (hhi : s.effAddr n ≤ 4095) :
    ∃ t, exec i s = .next t ∧ t = { s with mem := t.mem } ∧
      (∀ k (hk : k < bs.length), t.readByte (s.effAddr k) = bs[k]) ∧
      ∀ a, (∀ k, k ≤ n → a ≠ s.effAddr k) → t.readByte a = s.readByte a := by
  have en := s.effAddr_eq_add n
  rw [h, storeBytes_ok s bs _ (by omega) hlo]
  refine ⟨_, rfl, rfl, fun k hk => ?_, fun a ha => ?_⟩
  · have ek := s.effAddr_eq_add k
    rw [State.readByte_writeList, dif_pos (by omega)]
    simp only [ek, Nat.add_sub_cancel_left]
  · rw [State.readByte_writeList, dif_neg]
    rintro ⟨hge, hlt⟩
    have ea := s.effAddr_eq_add (a - s.effAddr 0)
    exact ha (a - s.effAddr 0) (by omega) (by omega)

/-- A meaning that stores a block at I raises the fault of the first byte it may not write, in the range or in
the font. -/
theorem raises_store_block {k : Nat} (h : exec i s = orFault (storeBytes s (s.effAddr 0) bs) s)
    (hk : k < bs.length) (hbefore : ∀ j, j < k → 0x50 ≤ s.effAddr j ∧ s.effAddr j ≤ 4095) :
    (4095 < s.effAddr k → Raises i s (.memOutOfRange (s.effAddr k) s.executingAt)) ∧
    (s.effAddr k ≤ 0x4F → Raises i s (.fontWrite (s.effAddr k) s.executingAt)) := by
  have hne : bs ≠ [] := List.ne_nil_of_length_pos (Nat.zero_lt_of_lt hk)
  have ek := s.effAddr_eq_add k
  refine ⟨fun hr => raises_of_takeFault ?_ rfl, fun hf => raises_of_takeFault ?_ rfl⟩
  · have hmax := State.max_effAddr_of_first_out_of_range (fun j hj => (hbefore j hj).2) hr
    have hlo : 0x50 ≤ s.effAddr 0 := by
      rcases Nat.eq_zero_or_pos k with rfl | hpos
      · omega
      · exact (hbefore 0 hpos).1
    rw [h, storeBytes_range_error s bs _ hne hlo (by omega), hmax, orFault_error, State.insnAddr_eq_executingAt]
  · obtain rfl : k = 0 := Nat.eq_zero_of_not_pos fun hpos => by
      obtain ⟨hlo, _⟩ := hbefore 0 hpos
      omega
    rw [h, storeBytes_font_error s bs _ hne hf, orFault_error, State.insnAddr_eq_executingAt]

end

/-! ### Fx33 and Fx55 (R82, R83) -/

theorem byte_ofNat_toNat {n : Nat} (h : n < 256) : (BitVec.ofNat 8 n).toNat = n := by
  rw [BitVec.toNat_ofNat, Nat.mod_eq_of_lt h]

/-- Settles O38: the block store of the three digits, each below 256 as a number. -/
theorem decimal_digits_are_stored : Obligations.Decimal_digits_are_stored := by
  refine ⟨encodes_of_decodeGroupF 0x33 (by decide) (by decide) fun op hk => by simp [decodeGroupF_eq_ite, hk],
    fun x s => ⟨fun hlo hhi => ?_, fun k hk hbefore =>
      raises_store_block rfl (by rw [decimalDigits_length]; omega) hbefore⟩⟩
  obtain ⟨t, ht, hframe, hread, hother⟩ :=
    exec_store_block (i := .ldBVx x) rfl (decimalDigits_length (s.getV x)) hlo hhi
  have hv := (s.getV x).isLt
  refine ⟨t, ht, hframe, ?_, ?_, ?_, hother⟩
  · exact (congrArg BitVec.toNat (hread 0 (show 0 < 3 by decide))).trans (byte_ofNat_toNat (by omega))
  · exact (congrArg BitVec.toNat (hread 1 (show 1 < 3 by decide))).trans (byte_ofNat_toNat (by omega))
  · exact (congrArg BitVec.toNat (hread 2 (show 2 < 3 by decide))).trans (byte_ofNat_toNat (by omega))

/-- Settles O39: the block store of V[0]..V[x]. -/
theorem register_block_is_stored : Obligations.Register_block_is_stored := by
  refine ⟨encodes_of_decodeGroupF 0x55 (by decide) (by decide) fun op hk => by simp [decodeGroupF_eq_ite, hk],
    fun x s => ⟨fun hlo hhi => ?_, fun k hk hbefore =>
      raises_store_block rfl (by rw [State.regBlock_length]; omega) hbefore⟩⟩
  have hlen := s.regBlock_length x
  obtain ⟨t, ht, hframe, hread, hother⟩ := exec_store_block (i := .ldIVx x) rfl hlen hlo hhi
  refine ⟨t, ht, hframe, fun k hk => ?_, fun a ha => hother a fun k hk => ?_⟩
  · rw [hread k.val (hlen ▸ Nat.lt_succ_of_le hk), State.regBlock_getElem]
  · exact ha ⟨k, Nat.lt_of_le_of_lt hk x.isLt⟩ hk

/-! ### The block load (R84) -/

/-- A block inside memory is loaded whole, whatever the region: no font check stands in the way of a read (R29). -/
theorem exec_ldVxI_ok (x : Reg) (s : State) (h : s.effAddr x.val ≤ 4095) :
    exec (.ldVxI x) s = .next { s with
      v := writeRegs s.v 0 ((List.range (x.val + 1)).map fun k => s.readByte (s.effAddr k)) } := by
  have ex := s.effAddr_eq_add x.val
  rw [exec, execLdVxI, loadBytes_ok s _ _ (.inr (by omega))]
  rfl

/-- The registers after the block load: those up to x hold the bytes, the others are as before. -/
theorem writeRegs_range_getElem (v : Vector Byte 16) (n : Nat) (f : Nat → Byte) (j : Nat) (hj : j < 16) :
    (writeRegs v 0 ((List.range n).map f))[j] = if j < n then f j else v[j] := by
  rw [writeRegs_getElem]
  simp

theorem raises_ldVxI (x : Reg) (s : State) (k : Nat) (hk : k ≤ x.val)
    (hbefore : ∀ j, j < k → s.effAddr j ≤ 4095) (hr : 4095 < s.effAddr k) :
    Raises (.ldVxI x) s (.memOutOfRange (s.effAddr k) s.executingAt) := by
  have hmax := State.max_effAddr_of_first_out_of_range hbefore hr
  have ek := s.effAddr_eq_add k
  refine raises_of_takeFault ?_ rfl
  rw [exec, execLdVxI, loadBytes_error s _ _ (by omega) x.val.succ_pos, hmax, State.insnAddr_eq_executingAt]

/-- Settles O40: the registers after the block load, and the fault at the first address past the end. -/
theorem register_block_is_loaded : Obligations.Register_block_is_loaded := by
  refine ⟨encodes_of_decodeGroupF 0x65 (by decide) (by decide) fun op hk => by simp [decodeGroupF_eq_ite, hk],
    fun x s => ⟨fun hhi => ⟨_, exec_ldVxI_ok x s hhi, rfl, fun k hk => ?_, fun k hk => ?_⟩, raises_ldVxI x s⟩⟩
  · exact (writeRegs_range_getElem ..).trans (if_pos (Nat.lt_succ_of_le hk))
  · exact (writeRegs_range_getElem ..).trans (if_neg (Nat.not_lt_of_le hk))

end Sys2Proof.Machine
end

section
/-! PROOFS. Display (43_display.md): the clear, and the sprite draw with its flips, its collision flag and its
range fault (R85, R86). -/

namespace Sys2Proof

/-- Group D is one instruction (R43). -/
theorem decode_drw (op : Word) (h : fieldG op = 0xD) :
    decode op = .ok (.drw (fieldX op) (fieldY op) (fieldN op).toNat) := by
  simp [decode, h]

theorem decode_cls (op : Word) (hg : fieldG op = 0x0) (hn : fieldN op = 0x0) : decode op = .ok .cls := by
  simp [decode_group0 op hg, decodeGroup0_eq_ite, hn]

end Sys2Proof

namespace Sys2Proof.Machine

/-! ### The clear (R85) -/

/-- Settles O43: CLS writes the clear framebuffer and frame_dirty, whatever op[11:4] holds. -/
theorem cls_clears_the_display : Obligations.Cls_clears_the_display :=
  ⟨encodes_of_fieldG_fieldN 0x0 0x0 (by decide) (by decide) decode_cls,
   fun _ => ⟨_, rfl, rfl, Framebuffer.pixel_clear⟩⟩

/-! ### The sprite at I (R86) -/

theorem b2u_eq_one_iff (c : Bool) : b2u c = 1 ↔ c = true := by cases c <;> decide

theorem b2u_eq_one_or_zero (c : Bool) : b2u c = 1 ∨ b2u c = 0 := by cases c <;> decide

/-- The bytes of the n-row sprite at I, the top row first. -/
def State.spriteRows (s : State) (n : Nat) : List Byte := (List.range n).map fun k => s.readByte (s.effAddr k)

theorem State.spriteRows_length (s : State) (n : Nat) : (s.spriteRows n).length = n := by
  simp [State.spriteRows]

theorem State.spriteRows_getElem?_eq_some (s : State) (n r : Nat) (b : Byte) :
    (s.spriteRows n)[r]? = some b ↔ r < n ∧ s.readByte (s.effAddr r) = b := by
  simp [State.spriteRows, List.getElem?_eq_some_iff]

theorem loadBytes_spriteRows (s : State) (n : Nat) (h : n = 0 ∨ s.effAddr n ≤ 4096) :
    loadBytes s (s.effAddr 0) n = .ok (s.spriteRows n) :=
  loadBytes_ok s n (s.effAddr 0) h

/-- The drawing loops' set bits at wrapped places are the set bits that cover a pixel. -/
theorem spriteHits_spriteRows (s : State) (x y : Reg) (n : Nat) (row : Fin 32) (col : Fin 64) :
    SpriteHits (s.getV x).toNat (s.getV y).toNat (s.spriteRows n) row col ↔ s.spriteCovers x y n row col := by
  constructor
  · rintro ⟨r, c, b, hb, hc, hset, hrow, hcol⟩
    obtain ⟨hr, rfl⟩ := (s.spriteRows_getElem?_eq_some n r b).1 hb
    rw [spriteBit_eq _ c hc] at hset
    exact ⟨r, c, hr, hc, hset, (congrArg Fin.val hrow).symm, (congrArg Fin.val hcol).symm⟩
  · rintro ⟨r, c, hr, hc, hset, hrow, hcol⟩
    refine ⟨r, c, _, (s.spriteRows_getElem?_eq_some n r _).2 ⟨hr, rfl⟩, hc, ?_, Fin.ext hrow.symm,
      Fin.ext hcol.symm⟩
    rw [spriteBit_eq _ c hc]
    exact hset

/-- What the sprite at I makes of the framebuffer, drawn at (V[x], V[y]). -/
def State.spriteCanvas (s : State) (x y : Reg) (n : Nat) : Canvas :=
  Canvas.drawRows (s.getV x).toNat (s.getV y).toNat (s.spriteRows n) ⟨s.fb, false⟩

theorem State.spriteCanvas_pixel (s : State) (x y : Reg) (n : Nat) (hn : n ≤ 15) (row : Fin 32) (col : Fin 64) :
    (s.spriteCanvas x y n).fb.pixel row col ≠ s.fb.pixel row col ↔ s.spriteCovers x y n row col :=
  (Canvas.drawRows_pixel _ _ _ ⟨s.fb, false⟩ row col (by rw [s.spriteRows_length]; omega)).trans
    (spriteHits_spriteRows s x y n row col)

theorem State.spriteCanvas_collide (s : State) (x y : Reg) (n : Nat) (hn : n ≤ 15) :
    (s.spriteCanvas x y n).collide = true ↔
      ∃ row col, s.spriteCovers x y n row col ∧ s.fb.pixel row col = true := by
  rw [State.spriteCanvas, Canvas.drawRows_collide _ _ _ _ (by rw [s.spriteRows_length]; omega)]
  simp [spriteHits_spriteRows]

/-! ### The draw (R86) -/

theorem exec_drw_ok (x y : Reg) (n : Nat) (s : State) (h : n = 0 ∨ s.effAddr n ≤ 4096) :
    exec (.drw x y n) s = .next { s.setV vf (b2u (s.spriteCanvas x y n).collide) with
      fb := (s.spriteCanvas x y n).fb, frameDirty := true } := by
  rw [exec, execDrw, loadBytes_spriteRows s n h]
  rfl

theorem raises_drw (x y : Reg) (n : Nat) (s : State) (r : Nat) (hr : r < n)
    (hbefore : ∀ q, q < r → s.effAddr q ≤ 4095) (hrange : 4095 < s.effAddr r) :
    Raises (.drw x y n) s (.memOutOfRange (s.effAddr r) s.executingAt) := by
  have hmax := State.max_effAddr_of_first_out_of_range hbefore hrange
  have er := s.effAddr_eq_add r
  refine raises_of_takeFault ?_ rfl
  rw [exec, execDrw, loadBytes_error s _ _ (by omega) (by omega), hmax, State.insnAddr_eq_executingAt]

/-- Settles O44: a sprite of at most 15 rows never meets itself under the wrap, so each set bit flips its own
pixel and the collision is with what was lit on entry; the fault is the block read's. -/
theorem drw_xors_the_sprite_and_reports_collision : Obligations.Drw_xors_the_sprite_and_reports_collision := by
  refine ⟨encodes_of_fieldG 0xD (by decide) decode_drw, fun x y n s hwf => ⟨fun h => ?_, raises_drw x y n s⟩⟩
  have hn : n ≤ 15 := of_decide_eq_true hwf
  have hvf := s.getV_setV_same vf (b2u (s.spriteCanvas x y n).collide)
  refine ⟨_, exec_drw_ok x y n s h, rfl, s.spriteCanvas_pixel x y n hn, ?_, ?_,
    fun r hr => State.getV_setV_ne s vf r _ hr⟩
  · exact (b2u_eq_one_or_zero _).imp hvf.trans hvf.trans
  · exact (Eq.congr_left hvf).trans ((b2u_eq_one_iff _).trans (s.spriteCanvas_collide x y n hn))

end Sys2Proof.Machine
end

section
/-! PROOFS. Keypad and timers (44_keypad_timers.md): the key tests, the key wait and the timer accesses (R87 to
R92). -/

namespace Sys2Proof.Machine

/-- A row of group E: it is enough to say what the group's selector answers at the row's low byte. -/
theorem encodes_of_decodeGroupE {value : Word} {f : Word → Instr} (kk : Byte) (hg : fieldG value = 0xE)
    (hk : fieldKk value = kk) (h : ∀ op, fieldKk op = kk → decodeGroupE op = .ok (f op)) :
    Encodes 0xF0FF value f :=
  encodes_of_fieldG_fieldKk 0xE kk hg hk fun op hgo hko => (decode_groupE op hgo).trans (h op hko)

/-! ### The key tests (R87, R88) -/

section

variable {x : Reg} {s : State}

/-- A value that is a key's number names that key. -/
theorem keyOf_eq_some_of_toNat_eq {b : Byte} {k : Key} (h : b.toNat = k.val) : keyOf b = some k :=
  (keyOf_some b (h ▸ k.isLt)).trans (congrArg some (Fin.ext h))

theorem setsPc_skp {k : Key} (h : (s.getV x).toNat = k.val) :
    SetsPc (.skp x) s (if s.keyDown k = true then s.pc + 2 else s.pc) :=
  setsPc_of_skipIf (c := s.keyDown k) (by rw [exec, execSkp, keyOf_eq_some_of_toNat_eq h]) Iff.rfl

theorem setsPc_sknp {k : Key} (h : (s.getV x).toNat = k.val) :
    SetsPc (.sknp x) s (if s.keyDown k = false then s.pc + 2 else s.pc) :=
  setsPc_of_skipIf (c := !s.keyDown k) (by rw [exec, execSknp, keyOf_eq_some_of_toNat_eq h])
    (iff_of_eq (Bool.not_eq_true' _))

theorem raises_skp (h : 0x0F < (s.getV x).toNat) :
    Raises (.skp x) s (.keyIndexOutOfRange (s.getV x) s.executingAt) :=
  raises_of_takeFault (by rw [exec, execSkp, keyOf_none _ h, State.insnAddr_eq_executingAt]) rfl

theorem raises_sknp (h : 0x0F < (s.getV x).toNat) :
    Raises (.sknp x) s (.keyIndexOutOfRange (s.getV x) s.executingAt) :=
  raises_of_takeFault (by rw [exec, execSknp, keyOf_none _ h, State.insnAddr_eq_executingAt]) rfl

end

/-- Settles O46: a number up to 0x0F names a key, which the skip tests; a greater one names none, and the fault
is taken. -/
theorem key_skips_test_the_named_key : Obligations.Key_skips_test_the_named_key :=
  ⟨encodes_of_decodeGroupE 0x9E (by decide) (by decide) fun op hk => by simp [decodeGroupE_eq_ite, hk],
   encodes_of_decodeGroupE 0xA1 (by decide) (by decide) fun op hk => by simp [decodeGroupE_eq_ite, hk],
   fun _ _ => ⟨fun _ hk => ⟨setsPc_skp hk, setsPc_sknp hk⟩, fun h => ⟨raises_skp h, raises_sknp h⟩⟩⟩

/-! ### The key wait (R90) -/

theorem State.pressedKeys_eq_nil_iff (s : State) : s.pressedKeys = [] ↔ ∀ k, s.keyDown k = false := by
  simp [List.eq_nil_iff_forall_not_mem, State.mem_pressedKeys]

theorem setsPc_ldVxK_of_no_key (x : Reg) (s : State) (h : ∀ k, s.keyDown k = false) :
    SetsPc (.ldVxK x) s (s.pc - 2) := by
  rw [SetsPc, exec, execLdVxK, s.pressedKeys_eq_nil_iff.2 h]
  rfl

/-- What Fx0A leaves when the draw answers the key `k` and moves the draw counter to `draws`: V[x] is the key's
number, and the key is released under P_FX0A_CLEARS_KEY. -/
def State.takeKey (s : State) (x : Reg) (k : Key) (draws : Nat) : State :=
  let t := ({ s with keyDraws := draws } : State).setV x (BitVec.ofNat 8 k.val)
  if s.cfg.fx0aClearsKey then t.setKey k false else t

section

variable (s : State) (x : Reg) (k : Key) (draws : Nat)

theorem State.takeKey_frame :
    s.takeKey x k draws =
      { s with v := (s.takeKey x k draws).v, keys := (s.takeKey x k draws).keys,
               keyDraws := (s.takeKey x k draws).keyDraws } := by
  unfold State.takeKey
  split <;> rfl

theorem State.getV_takeKey (r : Reg) :
    (s.takeKey x k draws).getV r = if r = x then BitVec.ofNat 8 k.val else s.getV r := by
  unfold State.takeKey
  split <;> exact State.getV_setV { s with keyDraws := draws } x r _

theorem State.keyDown_takeKey (j : Key) :
    (s.takeKey x k draws).keyDown j = (s.keyDown j && !(s.cfg.fx0aClearsKey && decide (j = k))) := by
  unfold State.takeKey
  split
  case isTrue hc =>
    have hother : (({ s with keyDraws := draws } : State).setV x (BitVec.ofNat 8 k.val)).keyDown j = s.keyDown j :=
      rfl
    rw [State.keyDown_setKey, hother, hc]
    by_cases hj : j = k <;> simp [hj]
  case isFalse hc =>
    rw [Bool.eq_false_iff.2 hc]
    exact (Bool.and_true _).symm

end

/-- With a key pressed Fx0A takes one of the pressed keys, whichever the draw answers. -/
theorem exec_ldVxK_of_key (x : Reg) (s : State) (h : ∃ k, s.keyDown k = true) :
    ∃ k draws, s.keyDown k = true ∧ exec (.ldVxK x) s = .next (s.takeKey x k draws) := by
  cases hp : s.pressedKeys with
  | nil =>
    obtain ⟨k, hk⟩ := h
    exact absurd (s.pressedKeys_eq_nil_iff.1 hp k) (by simp [hk])
  | cons k ks =>
    have hmem : (drawKey k ks s).1 ∈ s.pressedKeys := hp ▸ drawKey_mem k ks s
    refine ⟨(drawKey k ks s).1, s.keyDraws + if ks = [] then 0 else 1, (s.mem_pressedKeys _).1 hmem, ?_⟩
    rw [exec, execLdVxK, hp, State.takeKey, ← drawKey_state k ks s]

/-- Settles O47: no key pressed is the empty list of pressed keys; otherwise the drawn key is one of them. -/
theorem key_wait_polls_or_takes_a_pressed_key : Obligations.Key_wait_polls_or_takes_a_pressed_key := by
  refine ⟨encodes_of_decodeGroupF 0x0A (by decide) (by decide) fun op hk => by simp [decodeGroupF_eq_ite, hk],
    fun x s => ⟨setsPc_ldVxK_of_no_key x s, fun h => ?_⟩⟩
  obtain ⟨k, draws, hk, he⟩ := exec_ldVxK_of_key x s h
  refine ⟨_, k, he, hk, s.takeKey_frame x k draws, ?_, fun r hr => ?_, s.keyDown_takeKey x k draws⟩
  · rw [State.getV_takeKey, if_pos rfl, byte_ofNat_toNat (by omega)]
  · rw [State.getV_takeKey, if_neg hr]

/-! ### The timers (R89, R91, R92) -/

/-- Settles O48: Fx07 is one register write of DT, Fx15 and Fx18 one write of their timer. -/
theorem timer_reads_and_writes : Obligations.Timer_reads_and_writes :=
  ⟨encodes_of_decodeGroupF 0x07 (by decide) (by decide) fun op hk => by simp [decodeGroupF_eq_ite, hk],
   encodes_of_decodeGroupF 0x15 (by decide) (by decide) fun op hk => by simp [decodeGroupF_eq_ite, hk],
   encodes_of_decodeGroupF 0x18 (by decide) (by decide) fun op hk => by simp [decodeGroupF_eq_ite, hk],
   fun _ _ => ⟨setsReg_of_setV rfl, rfl, rfl⟩⟩

end Sys2Proof.Machine
end

section
/-! PROOFS. Faults, timers and the host's operations (60_exceptions.md): what each fault says of the step that
raised it, the tick at the end of a completed step, and the host's keys, timers and reads (R93 to R96, R102 to
R107). -/

namespace Sys2Proof.Machine

/-! ### A step that raises a fault writes the status alone (R95) -/

/-- Settles O11: a step either raised its fault or ran to the end of a completed step, which leaves RUNNING. -/
theorem faulting_step_is_all_or_nothing : Obligations.Faulting_step_is_all_or_nothing := by
  intro s t f h ht
  obtain ⟨_, ⟨g, rfl⟩ | ⟨i, u, _, _, hul, rfl⟩⟩ := step_next_cases h
  · exact congrArg (fun st => { s with status := st }) ht
  · cases (endStep_status_of_live u hul).symm.trans ht

/-! ### The host's keys and reads (R104 to R107) -/

theorem hostSetKey_of_key (k : Key) (pressed : Bool) (s : State) :
    hostSetKey k.val pressed s = (s.setKey k pressed, .ok) :=
  dif_pos k.isLt

theorem hostSetKey_of_no_key (index : Nat) (pressed : Bool) (s : State) (h : 16 ≤ index) :
    hostSetKey index pressed s = (s, .notAdmitted) :=
  dif_neg (Nat.not_lt.2 h)

/-- Settles O51: an index below 16 is one key write, a greater one is refused. -/
theorem set_key_writes_one_key : Obligations.Set_key_writes_one_key := by
  refine fun index pressed s => ⟨?_, hostSetKey_of_no_key index pressed s⟩
  rintro k rfl
  exact ⟨_, hostSetKey_of_key k pressed s, rfl, fun j => State.keyDown_setKey s k j pressed⟩

/-- Settles O52: each accessor is one field of the state, and the clear one write of a field. -/
theorem accessors_read_and_clear_frame_dirty : Obligations.Accessors_read_and_clear_frame_dirty :=
  fun _ => ⟨rfl, rfl, rfl, rfl, rfl, rfl, rfl⟩

/-! ### What an instruction can raise, and what it leaves when it completes (R93, R96, R102) -/

/-- The rows of R93's table that a handler raises: the instruction, the condition, and the fault with its info. -/
inductive ExecRaises (s : State) : Instr → Fault → Prop where
  | retOnEmptyStack (h : s.sp = 0) : ExecRaises s .ret (.stackUnderflow s.executingAt)
  | callOnFullStack (nnn : BitVec 12) (h : s.sp = 16) : ExecRaises s (.call nnn) (.stackOverflow s.executingAt)
  | skpOfNoKey (x : Reg) (h : 0x0F < (s.getV x).toNat) :
    ExecRaises s (.skp x) (.keyIndexOutOfRange (s.getV x) s.executingAt)
  | sknpOfNoKey (x : Reg) (h : 0x0F < (s.getV x).toNat) :
    ExecRaises s (.sknp x) (.keyIndexOutOfRange (s.getV x) s.executingAt)
  | drwPastEnd (x y : Reg) (n k : Nat) (hk : k < n) (h : 4095 < s.effAddr k) :
    ExecRaises s (.drw x y n) (.memOutOfRange (s.effAddr k) s.executingAt)
  | ldVxIPastEnd (x : Reg) (k : Nat) (hk : k ≤ x.val) (h : 4095 < s.effAddr k) :
    ExecRaises s (.ldVxI x) (.memOutOfRange (s.effAddr k) s.executingAt)
  | ldIVxPastEnd (x : Reg) (k : Nat) (hk : k ≤ x.val) (h : 4095 < s.effAddr k) :
    ExecRaises s (.ldIVx x) (.memOutOfRange (s.effAddr k) s.executingAt)
  | ldBVxPastEnd (x : Reg) (k : Nat) (hk : k ≤ 2) (h : 4095 < s.effAddr k) :
    ExecRaises s (.ldBVx x) (.memOutOfRange (s.effAddr k) s.executingAt)
  | ldIVxInFont (x : Reg) (h : s.effAddr 0 ≤ 0x04F) :
    ExecRaises s (.ldIVx x) (.fontWrite (s.effAddr 0) s.executingAt)
  | ldBVxInFont (x : Reg) (h : s.effAddr 0 ≤ 0x04F) :
    ExecRaises s (.ldBVx x) (.fontWrite (s.effAddr 0) s.executingAt)

theorem ExecRaises.faultPc_eq {s : State} {i : Instr} {f : Fault} (h : ExecRaises s i f) :
    f.faultPc = s.executingAt := by
  cases h <;> rfl

/-- What DT holds at the end of `i`'s own work, before the tick: Fx15 alone writes it (R91). -/
def dtAfter (i : Instr) (s : State) : Byte :=
  match i with
  | .ldDtVx x => s.getV x
  | _ => s.dt

/-- What ST holds at the end of `i`'s own work, before the tick: Fx18 alone writes it (R92). -/
def stAfter (i : Instr) (s : State) : Byte :=
  match i with
  | .ldStVx x => s.getV x
  | _ => s.st

/-- `i` completes in `s`: status and parameters stay, and the timers are as `i` alone leaves them. -/
def Completes (i : Instr) (s : State) : Prop :=
  ∃ t, exec i s = .next t ∧ t.status = s.status ∧ t.cfg = s.cfg ∧
    t.dt = dtAfter i s ∧ t.st = stAfter i s

/-- `i` raises a fault in `s` for a reason of R93's table. -/
def RaisesForCause (i : Instr) (s : State) : Prop := ∃ f, ExecRaises s i f ∧ Raises i s f

/-! The stack and the keys (R58, R60, R87, R88). -/

theorem ret_completes_or_raises (s : State) : Completes .ret s ∨ RaisesForCause .ret s := by
  rcases Fin.eq_zero_or_eq_succ s.sp with h | ⟨k, h⟩
  · exact .inr ⟨_, .retOnEmptyStack h, raises_ret s h⟩
  · exact .inl ⟨_, exec_ret_ok s k (congrArg Fin.val h), rfl, rfl, rfl, rfl⟩

theorem call_completes_or_raises (nnn : BitVec 12) (s : State) :
    Completes (.call nnn) s ∨ RaisesForCause (.call nnn) s := by
  rcases Fin.eq_castSucc_or_eq_last s.sp with ⟨k, h⟩ | h
  · exact .inl ⟨_, exec_call_ok nnn s (h ▸ k.isLt), rfl, rfl, rfl, rfl⟩
  · exact .inr ⟨_, .callOnFullStack nnn h, raises_call nnn s h⟩

/-- A byte is the number of a key, or above 0x0F. -/
theorem byte_key_cases (b : Byte) : (∃ k : Key, b.toNat = k.val) ∨ 0x0F < b.toNat :=
  (Nat.lt_or_ge b.toNat 16).imp (fun h => ⟨⟨_, h⟩, rfl⟩) id

theorem skp_completes_or_raises (x : Reg) (s : State) : Completes (.skp x) s ∨ RaisesForCause (.skp x) s := by
  rcases byte_key_cases (s.getV x) with ⟨k, h⟩ | h
  · exact .inl ⟨_, setsPc_skp h, rfl, rfl, rfl, rfl⟩
  · exact .inr ⟨_, .skpOfNoKey x h, raises_skp h⟩

theorem sknp_completes_or_raises (x : Reg) (s : State) :
    Completes (.sknp x) s ∨ RaisesForCause (.sknp x) s := by
  rcases byte_key_cases (s.getV x) with ⟨k, h⟩ | h
  · exact .inl ⟨_, setsPc_sknp h, rfl, rfl, rfl, rfl⟩
  · exact .inr ⟨_, .sknpOfNoKey x h, raises_sknp h⟩

/-! The blocks at I (R82 to R84, R86). -/

/-- A block that passes the end has a first address past it. -/
theorem State.exists_first_out_of_range (s : State) (n : Nat) (h : 4095 < s.effAddr n) :
    ∃ k, k ≤ n ∧ (∀ j, j < k → s.effAddr j ≤ 4095) ∧ 4095 < s.effAddr k := by
  have hn := s.effAddr_eq_add n
  have hk := s.effAddr_eq_add (4096 - s.effAddr 0)
  refine ⟨4096 - s.effAddr 0, by omega, fun j hj => ?_, by omega⟩
  have hj' := s.effAddr_eq_add j
  omega

theorem drw_completes_or_raises (x y : Reg) (n : Nat) (s : State) :
    Completes (.drw x y n) s ∨ RaisesForCause (.drw x y n) s := by
  by_cases h : n = 0 ∨ s.effAddr n ≤ 4096
  · exact .inl ⟨_, exec_drw_ok x y n s h, rfl, rfl, rfl, rfl⟩
  · have hlast := s.effAddr_eq_add (n - 1)
    have hn := s.effAddr_eq_add n
    obtain ⟨k, hk, hbefore, hr⟩ := s.exists_first_out_of_range (n - 1) (by omega)
    have hkn : k < n := by omega
    exact .inr ⟨_, .drwPastEnd x y n k hkn hr, raises_drw x y n s k hkn hbefore hr⟩

theorem ldVxI_completes_or_raises (x : Reg) (s : State) :
    Completes (.ldVxI x) s ∨ RaisesForCause (.ldVxI x) s := by
  by_cases h : s.effAddr x.val ≤ 4095
  · exact .inl ⟨_, exec_ldVxI_ok x s h, rfl, rfl, rfl, rfl⟩
  · obtain ⟨k, hk, hbefore, hr⟩ := s.exists_first_out_of_range x.val (Nat.not_le.1 h)
    exact .inr ⟨_, .ldVxIPastEnd x k hk hr, raises_ldVxI x s k hk hbefore hr⟩

/-- A meaning that stores a block of n + 1 bytes at I stores it and writes memory alone, raises FONT_WRITE at its
first byte, or raises MEM_OUT_OF_RANGE at a byte of the block. -/
theorem store_block_cases {i : Instr} {s : State} {bs : List Byte} {n : Nat}
    (h : exec i s = orFault (storeBytes s (s.effAddr 0) bs) s) (hlen : bs.length = n + 1) :
    (∃ t, exec i s = .next t ∧ t = { s with mem := t.mem }) ∨
    (s.effAddr 0 ≤ 0x04F ∧ Raises i s (.fontWrite (s.effAddr 0) s.executingAt)) ∨
    (∃ k, k ≤ n ∧ 4095 < s.effAddr k ∧ Raises i s (.memOutOfRange (s.effAddr k) s.executingAt)) := by
  by_cases hf : s.effAddr 0 ≤ 0x04F
  · obtain ⟨_, hfont⟩ := raises_store_block (k := 0) h (by omega) fun j hj => absurd hj j.not_lt_zero
    exact .inr (.inl ⟨hf, hfont hf⟩)
  · by_cases hr : s.effAddr n ≤ 4095
    · obtain ⟨t, ht, hframe, _⟩ := exec_store_block h hlen (by omega) hr
      exact .inl ⟨t, ht, hframe⟩
    · obtain ⟨k, hk, hbefore, hk'⟩ := s.exists_first_out_of_range n (Nat.not_le.1 hr)
      obtain ⟨hrange, _⟩ := raises_store_block h (by omega) fun j hj =>
        ⟨by have := s.effAddr_eq_add j; omega, hbefore j hj⟩
      exact .inr (.inr ⟨k, hk, hk', hrange hk'⟩)

theorem ldBVx_completes_or_raises (x : Reg) (s : State) :
    Completes (.ldBVx x) s ∨ RaisesForCause (.ldBVx x) s := by
  rcases store_block_cases (i := .ldBVx x) rfl (decimalDigits_length (s.getV x)) with
    ⟨t, ht, hframe⟩ | ⟨hf, hr⟩ | ⟨k, hk, hrange, hr⟩
  · exact .inl ⟨_, ht.trans (congrArg _ hframe), rfl, rfl, rfl, rfl⟩
  · exact .inr ⟨_, .ldBVxInFont x hf, hr⟩
  · exact .inr ⟨_, .ldBVxPastEnd x k hk hrange, hr⟩

theorem ldIVx_completes_or_raises (x : Reg) (s : State) :
    Completes (.ldIVx x) s ∨ RaisesForCause (.ldIVx x) s := by
  rcases store_block_cases (i := .ldIVx x) rfl (s.regBlock_length x) with
    ⟨t, ht, hframe⟩ | ⟨hf, hr⟩ | ⟨k, hk, hrange, hr⟩
  · exact .inl ⟨_, ht.trans (congrArg _ hframe), rfl, rfl, rfl, rfl⟩
  · exact .inr ⟨_, .ldIVxInFont x hf, hr⟩
  · exact .inr ⟨_, .ldIVxPastEnd x k hk hrange, hr⟩

/-! The key wait and the flag instructions always complete (R66, R90). -/

theorem ldVxK_completes (x : Reg) (s : State) : Completes (.ldVxK x) s := by
  by_cases h : ∃ k, s.keyDown k = true
  · obtain ⟨k, draws, _, he⟩ := exec_ldVxK_of_key x s h
    rw [s.takeKey_frame] at he
    exact ⟨_, he, rfl, rfl, rfl, rfl⟩
  · have hno : ∀ k, s.keyDown k = false := fun k => Bool.eq_false_iff.2 fun hk => h ⟨k, hk⟩
    exact ⟨_, setsPc_ldVxK_of_no_key x s hno, rfl, rfl, rfl, rfl⟩

/-- Every meaning completes, or raises a fault of R93's table for the cause the table gives. -/
theorem exec_completes_or_raises (i : Instr) (s : State) : Completes i s ∨ RaisesForCause i s := by
  cases i with
  | ret => exact ret_completes_or_raises s
  | call nnn => exact call_completes_or_raises nnn s
  | skp x => exact skp_completes_or_raises x s
  | sknp x => exact sknp_completes_or_raises x s
  | drw x y n => exact drw_completes_or_raises x y n s
  | ldBVx x => exact ldBVx_completes_or_raises x s
  | ldIVx x => exact ldIVx_completes_or_raises x s
  | ldVxI x => exact ldVxI_completes_or_raises x s
  | ldVxK x => exact .inl (ldVxK_completes x s)
  | seImm x kk => exact .inl ⟨_, setsPc_seImm x kk s, rfl, rfl, rfl, rfl⟩
  | sneImm x kk => exact .inl ⟨_, setsPc_sneImm x kk s, rfl, rfl, rfl, rfl⟩
  | seReg x y => exact .inl ⟨_, setsPc_seReg x y s, rfl, rfl, rfl, rfl⟩
  | sneReg x y => exact .inl ⟨_, setsPc_sneReg x y s, rfl, rfl, rfl, rfl⟩
  | addReg | sub | shr | subn | shl =>
    exact .inl ⟨_, congrArg Host.Outcome.next (writeWithFlag_eq _ _ _ s), rfl, rfl, rfl, rfl⟩
  | cls | jp | ldImm | addImm | ldReg | orReg | andReg | xorReg | ldI | jpV0 | rnd | ldVxDt | ldDtVx | ldStVx
  | addIVx | ldFVx => exact .inl ⟨_, rfl, rfl, rfl, rfl, rfl⟩

/-! ### Which step raises which fault (R93, R96) -/

/-- A row of the table fixes the top nibble, and the low nibble or the low byte when its mask covers it. -/
theorem fields_of_admits {r : OpcodeRow} {op : Word} (hr : r ∈ opcodeTable) (h : r.admits op = true) :
    fieldG op = fieldG r.value ∧ (r.mask = 0xF00F → fieldN op = fieldN r.value) ∧
      (r.mask = 0xF0FF → fieldKk op = fieldKk r.value) := by
  have hm : ∀ m, r.mask = m → op &&& m = r.value := by
    rintro _ rfl
    exact beq_iff_eq.1 h
  have hmask : ∀ q ∈ opcodeTable, q.mask = 0xF000 ∨ q.mask = 0xF00F ∨ q.mask = 0xF0FF := by decide
  refine ⟨?_, fun e => fieldN_of_mask_g_n op _ (hm _ e), fun e => fieldKk_of_mask_g_kk op _ (hm _ e)⟩
  rcases hmask r hr with e | e | e
  · exact fieldG_of_mask_g op _ (hm _ e)
  · exact fieldG_of_mask_g_n op _ (hm _ e)
  · exact fieldG_of_mask_g_kk op _ (hm _ e)

/-- The rows of groups 0, 5, 8 and 9 fix the low nibble, at a selector of their group. -/
theorem low_nibble_of_row : ∀ r ∈ opcodeTable,
    (fieldG r.value = 0x0 → r.mask = 0xF00F ∧ (fieldN r.value = 0x0 ∨ fieldN r.value = 0xE)) ∧
    ((fieldG r.value = 0x5 ∨ fieldG r.value = 0x9) → r.mask = 0xF00F ∧ fieldN r.value = 0x0) ∧
    (fieldG r.value = 0x8 → r.mask = 0xF00F ∧
      fieldN r.value ∉ [0x8#4, 0x9#4, 0xA#4, 0xB#4, 0xC#4, 0xD#4, 0xF#4]) := by decide

/-- The rows of groups E and F fix the low byte, at a selector of their group. -/
theorem low_byte_of_row : ∀ r ∈ opcodeTable,
    (fieldG r.value = 0xE → r.mask = 0xF0FF ∧ fieldKk r.value ∈ [0x9E#8, 0xA1#8]) ∧
    (fieldG r.value = 0xF → r.mask = 0xF0FF ∧
      fieldKk r.value ∈ [0x07#8, 0x0A#8, 0x15#8, 0x18#8, 0x1E#8, 0x29#8, 0x33#8, 0x55#8, 0x65#8]) := by
  decide

/-- A word that decodes to no instruction is no row's: a row that admitted it would give it a selector of its
group, and an illegal word has none (R49, R51). -/
theorem admits_eq_false_of_illegal {op : Word} (h : ∀ i, decode op ≠ .ok i) {r : OpcodeRow}
    (hr : r ∈ opcodeTable) : r.admits op = false := by
  refine Bool.eq_false_iff.2 fun ha => ?_
  obtain ⟨hg, hn, hk⟩ := fields_of_admits hr ha
  obtain ⟨h0, h59, h8⟩ := low_nibble_of_row r hr
  obtain ⟨hE, hF⟩ := low_byte_of_row r hr
  rw [← hg] at h0 h59 h8 hE hF
  obtain ⟨hlisted, _⟩ := illegal_words_are_those_listed op
  rcases hlisted.2 h with ⟨g, hn0, hnE⟩ | ⟨g, hn0⟩ | ⟨g, hmem⟩ | ⟨g, hmem⟩ | ⟨g, hmem⟩
  · obtain ⟨hm, hsel⟩ := h0 g
    rw [← hn hm] at hsel
    exact hsel.elim hn0 hnE
  · obtain ⟨hm, hsel⟩ := h59 g
    exact hn0 ((hn hm).trans hsel)
  · obtain ⟨hm, hsel⟩ := h8 g
    exact hsel (hn hm ▸ hmem)
  · obtain ⟨hm, hsel⟩ := hE g
    exact hmem ((hk hm).symm ▸ hsel)
  · obtain ⟨hm, hsel⟩ := hF g
    exact hmem ((hk hm).symm ▸ hsel)

/-- A step that raises a fault raised it at the fetch, at the decode, or in the handler of the instruction it ran,
for a cause of R93's table. -/
theorem step_fault_cases {s t : State} {f : Fault} (h : step s = .next t) (ht : t.status = .faulted f) :
    s.live ∧
      ((4094 < s.pc.toNat ∧ f = .fetchOutOfRange s.pc) ∨
       (∃ op, s.fetches op ∧ (∀ i, decode op ≠ .ok i) ∧ f = .unknownOpcode op s.pc) ∨
       ∃ i, s.runs i ∧ ExecRaises s.advancePc i f) := by
  obtain ⟨hl, _⟩ := step_next_cases h
  refine ⟨hl, ?_⟩
  by_cases hp : s.pc.toNat ≤ 4094
  · have hf := fetch_ok s hp
    by_cases hd : ∃ i, decode (wordOfBytes (s.readByte s.pc.toNat) (s.readByte (s.pc.toNat + 1))) = .ok i
    · obtain ⟨i, hi⟩ := hd
      rw [step_exec s _ i hl hf hi] at h
      refine .inr (.inr ⟨i, ⟨hl, _, hf, hi⟩, ?_⟩)
      rcases exec_completes_or_raises i s.advancePc with ⟨u, hu, hs, _⟩ | ⟨g, hg, hr⟩
      · rw [hu] at h
        cases h
        have hul : u.live := (congrArg Status.isFaulted hs).trans hl
        cases (endStep_status_of_live u hul).symm.trans ht
      · rw [hr] at h
        cases h
        rw [endStep_faulted _ g rfl] at ht
        cases ht
        exact hg
    · cases (step_illegal hl hf (not_exists.1 hd)).symm.trans h
      cases ht
      exact .inr (.inl ⟨_, hf, not_exists.1 hd, rfl⟩)
  · have hp' := Nat.not_le.1 hp
    cases (step_fetch_error s hl hp').symm.trans h
    cases ht
    exact .inl ⟨hp', rfl⟩

/-- Settles O12: the fetch's fault, the decode's, and the handlers' row by row. -/
theorem fault_kinds_conditions_and_info : Obligations.Fault_kinds_conditions_and_info := by
  intro s t f h ht
  have hcode : t.status.code = f.code := congrArg Status.code ht
  obtain ⟨hl, ⟨hp, rfl⟩ | ⟨op, hf, hd, rfl⟩ | ⟨i, hrun, hcause⟩⟩ := step_fault_cases h ht
  · exact ⟨hl, rfl, hcode, hp⟩
  · exact ⟨hl, rfl, hcode, hf, fun _ => admits_eq_false_of_illegal hd⟩
  · refine ⟨hl, hcause.faultPc_eq.trans s.insnAddr_advancePc, ?_⟩
    cases hcause with
    | retOnEmptyStack hsp => exact ⟨hcode, hsp, hrun⟩
    | callOnFullStack nnn hsp => exact ⟨hcode, hsp, nnn, hrun⟩
    | skpOfNoKey x hx => exact ⟨hcode, hx, x, rfl, .inl hrun⟩
    | sknpOfNoKey x hx => exact ⟨hcode, hx, x, rfl, .inr hrun⟩
    | drwPastEnd x y n k hk ha => exact ⟨hcode, ha, _, k, hrun, rfl, .inl ⟨x, y, n, rfl, hk⟩⟩
    | ldBVxPastEnd x k hk ha => exact ⟨hcode, ha, _, k, hrun, rfl, .inr (.inl ⟨x, rfl, Nat.lt_succ_of_le hk⟩)⟩
    | ldIVxPastEnd x k hk ha => exact ⟨hcode, ha, _, k, hrun, rfl, .inr (.inr ⟨x, .inl rfl, hk⟩)⟩
    | ldVxIPastEnd x k hk ha => exact ⟨hcode, ha, _, k, hrun, rfl, .inr (.inr ⟨x, .inr rfl, hk⟩)⟩
    | ldBVxInFont x ha => exact ⟨hcode, ha, _, 0, hrun, rfl, .inl ⟨x, rfl, by decide⟩⟩
    | ldIVxInFont x ha => exact ⟨hcode, ha, _, 0, hrun, rfl, .inr ⟨x, rfl, x.val.zero_le⟩⟩

/-! ### The timers at the end of a step (R102, R103) -/

/-- What a completed step leaves in the timers: the instruction's own writes, then the tick under PER_STEP. -/
theorem completed_step_timers {s t : State} (h : step s = .next t) (hl : t.live) :
    ∃ i, s.runs i ∧
      (s.cfg.timerMode = .perStep → t.dt = tickDown (dtAfter i s) ∧ t.st = tickDown (stAfter i s)) ∧
      (s.cfg.timerMode = .hostTick → t.dt = dtAfter i s ∧ t.st = stAfter i s) := by
  obtain ⟨_, ⟨f, rfl⟩ | ⟨i, u, hrun, hu, hul, rfl⟩⟩ := step_next_cases h
  · cases hl
  · refine ⟨i, hrun, ?_⟩
    rcases exec_completes_or_raises i s.advancePc with ⟨u', hu', _, hcfg, hdt, hst⟩ | ⟨f, _, hr⟩
    · cases hu'.symm.trans hu
      rw [endStep_live u hul, hcfg, hdt, hst]
      refine ⟨fun hm => ⟨if_pos hm, if_pos hm⟩, fun hm => ?_⟩
      have hne : ¬ s.cfg.timerMode = .perStep := by simp [hm]
      exact ⟨if_neg hne, if_neg hne⟩
    · cases hr.symm.trans hu
      cases hul

/-- The next step runs one instruction. -/
theorem State.runs_unique {s : State} {i j : Instr} (hi : s.runs i) (hj : s.runs j) : i = j := by
  obtain ⟨_, op, hop, hdi⟩ := hi
  obtain ⟨_, op', hop', hdj⟩ := hj
  cases hop.symm.trans hop'
  cases hdi.symm.trans hdj
  rfl

/-- Settles O14: what the instruction leaves in the timers, and the tick as a number. -/
theorem completed_step_ticks_both_timers : Obligations.Completed_step_ticks_both_timers := by
  intro s t i hrun h hl
  obtain ⟨j, hj, hper, hhost⟩ := completed_step_timers h hl
  obtain rfl := State.runs_unique hrun hj
  refine ⟨fun hm => ?_, hhost⟩
  obtain ⟨hdt, hst⟩ := hper hm
  rw [hdt, hst]
  exact ⟨tickDown_toNat _, tickDown_toNat _⟩

theorem eq_ldDtVx_of_dtAfter_ne {i : Instr} {s : State} (h : dtAfter i s ≠ s.dt) :
    ∃ x, i = .ldDtVx x := by
  unfold dtAfter at h
  split at h
  · exact ⟨_, rfl⟩
  · exact absurd rfl h

theorem eq_ldStVx_of_stAfter_ne {i : Instr} {s : State} (h : stAfter i s ≠ s.st) :
    ∃ x, i = .ldStVx x := by
  unfold stAfter at h
  split at h
  · exact ⟨_, rfl⟩
  · exact absurd rfl h

/-- Under HOST_TICK a step changes a timer only by running the instruction that writes it. -/
theorem step_timers_of_hostTick {s t : State} (hm : s.cfg.timerMode = .hostTick) (h : step s = .next t) :
    (t.dt ≠ s.dt → ∃ x, s.runs (.ldDtVx x)) ∧ (t.st ≠ s.st → ∃ x, s.runs (.ldStVx x)) := by
  by_cases hl : t.live
  · obtain ⟨i, hrun, _, hhost⟩ := completed_step_timers h hl
    obtain ⟨hdt, hst⟩ := hhost hm
    rw [hdt, hst]
    refine ⟨fun hne => ?_, fun hne => ?_⟩
    · obtain ⟨x, rfl⟩ := eq_ldDtVx_of_dtAfter_ne hne
      exact ⟨x, hrun⟩
    · obtain ⟨x, rfl⟩ := eq_ldStVx_of_stAfter_ne hne
      exact ⟨x, hrun⟩
  · obtain ⟨_, ⟨f, rfl⟩ | ⟨i, u, _, _, hul, rfl⟩⟩ := step_next_cases h
    · exact ⟨fun hne => absurd rfl hne, fun hne => absurd rfl hne⟩
    · exact absurd (congrArg Status.isFaulted (endStep_status_of_live u hul)) hl

theorem hostTickTimers_of_hostTick {s : State} (h : s.cfg.timerMode = .hostTick) :
    hostTickTimers s = (s.timerTick, .ok) := by
  simp only [hostTickTimers, h]

theorem hostTickTimers_of_perStep {s : State} (h : s.cfg.timerMode = .perStep) :
    hostTickTimers s = (s, .notAdmitted) := by
  simp only [hostTickTimers, h]

/-- Settles O53: the host's tick is the tick of both timers, a step under HOST_TICK does not tick, and under
PER_STEP the host's tick is refused. -/
theorem host_ticks_the_timers_under_host_tick : Obligations.Host_ticks_the_timers_under_host_tick :=
  fun s => ⟨fun hm => ⟨s.timerTick, hostTickTimers_of_hostTick hm, rfl, tickDown_toNat s.dt, tickDown_toNat s.st⟩,
    fun hm _ => step_timers_of_hostTick hm, hostTickTimers_of_perStep⟩

end Sys2Proof.Machine
end

section
/-! PROOFS. Reset and load (70_reset_and_hazards.md): the state reset leaves (R113) and the ROM the host loads
(R115). -/

namespace Sys2Proof.Machine

/-! ### Reset (R113) -/

/-- The state reset leaves once `randomDraws` and `keyDraws` draws were consumed: none at power-on, those of the
run so far at the host's reset (log 6). -/
def State.resetAfterDraws (cfg : Config) (randomDraws keyDraws : Nat) : State :=
  { State.resetWith cfg with randomDraws := randomDraws, keyDraws := keyDraws }

theorem State.resetWith_eq_resetAfterDraws (cfg : Config) :
    State.resetWith cfg = State.resetAfterDraws cfg 0 0 := rfl

theorem hostCall_reset (s : State) :
    hostCall .reset s = (State.resetAfterDraws s.cfg s.randomDraws s.keyDraws, .ok) := rfl

/-- Power-on and the host's reset differ in the draw counters alone. -/
theorem eq_resetAfterDraws_of_reset {s t : State}
    (h : t = State.resetWith s.cfg ∨ hostCall .reset s = (t, .ok)) :
    ∃ r k, t = State.resetAfterDraws s.cfg r k := by
  rcases h with hpower | hhost
  · exact ⟨0, 0, hpower.trans (State.resetWith_eq_resetAfterDraws s.cfg)⟩
  · exact ⟨_, _, (congrArg Prod.fst ((hostCall_reset s).symm.trans hhost)).symm⟩

section
variable (cfg : Config) (randomDraws keyDraws : Nat)

/-- Reset lists no cell, so every address reads as an unlisted one. -/
theorem State.readByte_resetAfterDraws (a : Nat) :
    (State.resetAfterDraws cfg randomDraws keyDraws).readByte a = Memory.unlisted cfg.fontset a := rfl

theorem State.getV_resetAfterDraws (x : Reg) :
    (State.resetAfterDraws cfg randomDraws keyDraws).getV x = 0x00 :=
  Vector.getElem_replicate x.isLt

theorem State.stack_resetAfterDraws (k : Fin 16) :
    (State.resetAfterDraws cfg randomDraws keyDraws).stack[k.val] = 0x0000 :=
  Vector.getElem_replicate k.isLt

theorem State.keyDown_resetAfterDraws (k : Key) :
    (State.resetAfterDraws cfg randomDraws keyDraws).keyDown k = false :=
  Vector.getElem_replicate k.isLt

theorem State.fb_resetAfterDraws :
    (State.resetAfterDraws cfg randomDraws keyDraws).fb = Framebuffer.clear := rfl

end

/-- Settles O49: both resets leave `resetAfterDraws`, whose memory lists nothing, whose registers, stack and keys
are replicated zeros, and whose framebuffer is the one CLS leaves. -/
theorem reset_leaves_the_stated_values : Obligations.Reset_leaves_the_stated_values := by
  intro s t h
  obtain ⟨r, k, rfl⟩ := eq_resetAfterDraws_of_reset h
  have hfb : ∀ row col, (State.resetAfterDraws s.cfg r k).fb.pixel row col = false := fun row col => by
    rw [State.fb_resetAfterDraws, Framebuffer.pixel_clear]
  exact ⟨State.readByte_resetAfterDraws s.cfg r k, State.getV_resetAfterDraws s.cfg r k, rfl,
    State.stack_resetAfterDraws s.cfg r k, rfl, State.keyDown_resetAfterDraws s.cfg r k, rfl, rfl, rfl, hfb,
    rfl, rfl, rfl⟩

/-! ### Load (R115) -/

/-- The state with a ROM written from `PROGRAM_BASE` on. -/
def State.withRom (s : State) (bytes : List Byte) : State :=
  { s with mem := Memory.writeList s.cfg.fontset s.mem programBase bytes }

theorem State.readByte_withRom (s : State) (bytes : List Byte) (k : Nat) (h : k < bytes.length) :
    (s.withRom bytes).readByte (programBase + k) = bytes[k] := by
  rw [State.withRom, State.readByte_writeList, dif_pos (by omega)]
  simp

theorem State.readByte_withRom_outside (s : State) (bytes : List Byte) (a : Nat)
    (h : a < programBase ∨ programBase + bytes.length ≤ a) : (s.withRom bytes).readByte a = s.readByte a := by
  rw [State.withRom, State.readByte_writeList, dif_neg (by omega)]

/-- In READY the length alone decides. -/
theorem hostLoad_of_ready (bytes : List Byte) {s : State} (h : s.status = .ready) :
    hostLoad bytes s = if maxRom < bytes.length then (s, .romTooLarge) else (s.withRom bytes, .ok) := by
  unfold hostLoad
  split
  case h_1 => rfl
  case h_2 hr => cases h.symm.trans hr
  case h_3 hr => cases h.symm.trans hr

theorem hostLoad_of_fits {bytes : List Byte} {s : State} (h : s.status = .ready)
    (hlen : bytes.length ≤ maxRom) : hostLoad bytes s = (s.withRom bytes, .ok) :=
  (hostLoad_of_ready bytes h).trans (if_neg (Nat.not_lt.2 hlen))

theorem hostLoad_of_too_large {bytes : List Byte} {s : State} (h : s.status = .ready)
    (hlen : maxRom < bytes.length) : hostLoad bytes s = (s, .romTooLarge) :=
  (hostLoad_of_ready bytes h).trans (if_pos hlen)

/-- Settles O50: load's three answers, and what is read where the ROM was written and where it was not. -/
theorem load_writes_the_rom : Obligations.Load_writes_the_rom := by
  refine fun bytes s => ⟨fun hr hlen => ?_, hostLoad_of_too_large, hostLoad_of_not_ready bytes s⟩
  exact ⟨s.withRom bytes, hostLoad_of_fits hr hlen, rfl, State.readByte_withRom s bytes,
    State.readByte_withRom_outside s bytes⟩

end Sys2Proof.Machine
end

section
/-! PROOFS. Encoding (30_encoding.md): decode against encode in both directions, and the rows of the opcode table
(R39 to R53). -/

namespace Sys2Proof

/-! ### Written words -/

/-- Settles O1: ten closed words, decoded. -/
theorem decode_of_written_words : Obligations.Decode_of_written_words := by
  unfold Obligations.Decode_of_written_words
  decide

/-! ### Decode after encode (R41, R43 to R48) -/

theorem decode_packXyn_group8 (x y : Reg) (n : BitVec 4) :
    decode (packXyn 0x8#4 x y n) = decodeGroup8 (packXyn 0x8#4 x y n) :=
  decode_group8 _ (fieldG_packXyn ..)

theorem decode_packXkk_groupE (x : Reg) (kk : Byte) :
    decode (packXkk 0xE#4 x kk) = decodeGroupE (packXkk 0xE#4 x kk) :=
  decode_groupE _ (fieldG_packXkk ..)

theorem decode_packXkk_groupF (x : Reg) (kk : Byte) :
    decode (packXkk 0xF#4 x kk) = decodeGroupF (packXkk 0xF#4 x kk) :=
  decode_groupF _ (fieldG_packXkk ..)

theorem decode_encode (i : Instr) (h : i.wellFormed = true) : decode (encode i) = .ok i := by
  cases i with
  | cls | ret => decide
  | jp | call | ldI | jpV0 => simp [encode, decode, fieldG_packNnn, fieldNnn_packNnn]
  | seImm | sneImm | ldImm | addImm | rnd =>
    simp [encode, decode, fieldG_packXkk, fieldX_packXkk, fieldKk_packXkk]
  | seReg | sneReg =>
    simp [encode, decode, decodeGroup5_eq_ite, decodeGroup9_eq_ite, fieldG_packXyn, fieldX_packXyn,
      fieldY_packXyn, fieldN_packXyn]
  | ldReg | orReg | andReg | xorReg | addReg | sub | shr | subn | shl =>
    simp [encode, decode_packXyn_group8, decodeGroup8_eq_ite, fieldX_packXyn, fieldY_packXyn, fieldN_packXyn]
  | drw x y n =>
    have hn : n < 16 := Nat.lt_succ_of_le (of_decide_eq_true h)
    simp [encode, decode, fieldG_packXyn, fieldX_packXyn, fieldY_packXyn, fieldN_packXyn, Nat.mod_eq_of_lt hn]
  | skp | sknp =>
    simp [encode, decode_packXkk_groupE, decodeGroupE_eq_ite, fieldX_packXkk, fieldKk_packXkk]
  | ldVxDt | ldVxK | ldDtVx | ldStVx | addIVx | ldFVx | ldBVx | ldIVx | ldVxI =>
    simp [encode, decode_packXkk_groupF, decodeGroupF_eq_ite, fieldX_packXkk, fieldKk_packXkk]

/-- The two bytes of an instruction decode as its word does, whatever follows them. -/
theorem decodeBytes_encodeBytes (i : Instr) (rest : List Byte) (h : decode (encode i) = .ok i) :
    decodeBytes (encodeBytes i ++ rest) = .ok (i, rest) := by
  simp only [encodeBytes, List.cons_append, List.nil_append, decodeBytes, wordOfBytes_bytes, h]

/-- Settles O4: each format's fields are read back from the packed word, and the two bytes make that word. -/
theorem decode_encode_round_trip : Obligations.Decode_encode_round_trip := fun i h =>
  ⟨decode_encode i h, fun rest => decodeBytes_encodeBytes i rest (decode_encode i h)⟩

/-! ### Encode after decode (R50) -/

/-- The only operand that a type does not bound is the row count, a nibble of the word. -/
theorem wellFormed_of_decode {op : Word} {i : Instr} (h : decode op = .ok i) : i.wellFormed = true := by
  cases i with
  | drw x y n =>
    have hg : fieldG op = 0xD := (fieldG_encode_of_decode h).symm.trans (fieldG_packXyn ..)
    cases (decode_drw op hg).symm.trans h
    exact decide_eq_true (Nat.le_of_lt_succ (fieldN op).isLt)
  | _ => rfl

/-- The encoding of an instruction is one of its row's words. -/
theorem opcodeRow_admits_encode (i : Instr) : (opcodeRow i).admits (encode i) = true := by
  cases i with
  | cls => exact Laws.FixedBits.cls
  | ret => exact Laws.FixedBits.ret
  | jp => exact Laws.FixedBits.jp _
  | call => exact Laws.FixedBits.call _
  | seImm => exact Laws.FixedBits.seImm _ _
  | sneImm => exact Laws.FixedBits.sneImm _ _
  | seReg => exact Laws.FixedBits.seReg _ _
  | ldImm => exact Laws.FixedBits.ldImm _ _
  | addImm => exact Laws.FixedBits.addImm _ _
  | ldReg => exact Laws.FixedBits.ldReg _ _
  | orReg => exact Laws.FixedBits.orReg _ _
  | andReg => exact Laws.FixedBits.andReg _ _
  | xorReg => exact Laws.FixedBits.xorReg _ _
  | addReg => exact Laws.FixedBits.addReg _ _
  | sub => exact Laws.FixedBits.sub _ _
  | shr => exact Laws.FixedBits.shr _ _
  | subn => exact Laws.FixedBits.subn _ _
  | shl => exact Laws.FixedBits.shl _ _
  | sneReg => exact Laws.FixedBits.sneReg _ _
  | ldI => exact Laws.FixedBits.ldI _
  | jpV0 => exact Laws.FixedBits.jpV0 _
  | rnd => exact Laws.FixedBits.rnd _ _
  | drw => exact Laws.FixedBits.drw _ _ _
  | skp => exact Laws.FixedBits.skp _
  | sknp => exact Laws.FixedBits.sknp _
  | ldVxDt => exact Laws.FixedBits.ldVxDt _
  | ldVxK => exact Laws.FixedBits.ldVxK _
  | ldDtVx => exact Laws.FixedBits.ldDtVx _
  | ldStVx => exact Laws.FixedBits.ldStVx _
  | addIVx => exact Laws.FixedBits.addIVx _
  | ldFVx => exact Laws.FixedBits.ldFVx _
  | ldBVx => exact Laws.FixedBits.ldBVx _
  | ldIVx => exact Laws.FixedBits.ldIVx _
  | ldVxI => exact Laws.FixedBits.ldVxI _

/-- The bits of a word that group 0 does not ignore are its two selecting nibbles. -/
theorem and_mask_g_n (op : Word) : op &&& 0xF00F#16 = packXyn (fieldG op) 0 0 (fieldN op) := by
  conv_lhs => rw [← packXyn_fields op]
  exact packXyn_and_mask_g_n ..

/-- In group 0 the instruction keeps the bits of its word that are not ignored. -/
theorem encode_and_mask_of_group0 {op : Word} {i : Instr} (h : decode op = .ok i) (hg : fieldG op = 0x0) :
    (opcodeRow i).mask = 0xF00F#16 ∧ encode i &&& 0xF00F#16 = op &&& 0xF00F#16 := by
  rw [decode_group0 op hg, decodeGroup0_eq_ite] at h
  rw [and_mask_g_n op, hg]
  split at h
  case isTrue h0 =>
    cases h
    rw [h0]
    decide
  case isFalse =>
    split at h
    case isTrue hE =>
      cases h
      rw [hE]
      decide
    case isFalse => cases h

/-- A word that decodes is one of its instruction's row: its encoding is, and the row looks at no ignored bit. -/
theorem opcodeRow_admits_of_decode {op : Word} {i : Instr} (h : decode op = .ok i) :
    (opcodeRow i).admits op = true := by
  have hadm := opcodeRow_admits_encode i
  by_cases hg : fieldG op = 0x0
  · obtain ⟨hmask, hop⟩ := encode_and_mask_of_group0 h hg
    rw [OpcodeRow.admits, hmask] at hadm ⊢
    rwa [← hop]
  · rwa [encode_of_decode h hg] at hadm

/-- Settles O5: outside group 0 the word is the encoding, in group 0 up to the ignored bits. -/
theorem encode_decode_round_trip : Obligations.Encode_decode_round_trip := fun _ _ h =>
  ⟨wellFormed_of_decode h, opcodeRow_admits_of_decode h, encode_of_decode h,
   fun hg => (encode_and_mask_of_group0 h hg).2⟩

/-! ### The rows of the table (R49) -/

/-- Two rows whose fixed bits agree where both masks look are the same row. -/
theorem opcodeTable_eq_of_values_agree : ∀ r ∈ opcodeTable, ∀ q ∈ opcodeTable,
    r.value &&& q.mask = q.value &&& r.mask → r = q := by decide

theorem opcodeTable_eq_of_admits {r q : OpcodeRow} {op : Word} (hr : r ∈ opcodeTable) (hq : q ∈ opcodeTable)
    (har : r.admits op = true) (haq : q.admits op = true) : r = q := by
  refine opcodeTable_eq_of_values_agree r hr q hq ?_
  rw [← beq_iff_eq.1 har, ← beq_iff_eq.1 haq, BitVec.and_assoc, BitVec.and_assoc, BitVec.and_comm r.mask]

theorem opcodeRow_mem_opcodeTable (i : Instr) : opcodeRow i ∈ opcodeTable := by
  cases i <;> simp [opcodeTable, samples0To7, samples8, samples9ToE, samplesF, opcodeRow]

/-- Settles O6: two rows of one word agree on their common fixed bits; what decodes is its own row's, and an illegal
word is no row's. -/
theorem table_rows_are_disjoint_and_complete : Obligations.Table_rows_are_disjoint_and_complete := by
  refine fun op => ⟨fun r hr q hq => opcodeTable_eq_of_admits hr hq, ⟨?_, ?_⟩⟩
  · rintro ⟨r, hr, har⟩
    by_contra hd
    exact Bool.false_ne_true ((Machine.admits_eq_false_of_illegal (not_exists.1 hd) hr).symm.trans har)
  · rintro ⟨i, hi⟩
    exact ⟨opcodeRow i, opcodeRow_mem_opcodeTable i, opcodeRow_admits_of_decode hi⟩

end Sys2Proof
end

section
/-! PROOFS. Whole-machine invariants and who writes what: the state an instruction that completes leaves, said once
over all instructions, and what it says of each field after a step (R9 to R24, R54 to R57). -/

namespace Sys2Proof.Machine

/-! ### What an instruction that completes leaves -/

/-- The registers an instruction may write: its destination V[x], VF for a flag, V[0]..V[x] for Fx65 (R9). -/
def mayWriteReg : Instr → Reg → Prop
  | .ldImm x _, r | .addImm x _, r | .rnd x _, r => r = x
  | .ldReg x _, r | .orReg x _, r | .andReg x _, r | .xorReg x _, r => r = x
  | .addReg x _, r | .sub x _, r | .shr x _, r | .subn x _, r | .shl x _, r => r = x ∨ r = vf
  | .ldVxDt x, r | .ldVxK x, r => r = x
  | .drw _ _ _, r => r = vf
  | .ldVxI x, r => r ≤ x
  | _, _ => False

/-- The states `i` may leave in `s` when it completes, one constructor for each set of fields that are written
together; every field it does not write is as in `s`. The instruction is named where the fields are its own to
write, and the value as far as an invariant needs it. -/
inductive Leaves (s : State) : Instr → State → Prop where
  | cls : Leaves s .cls { s with fb := Framebuffer.clear, frameDirty := true }
  | drw (x y : Reg) (n : Nat) (b : Byte) (fb : Framebuffer) :
    Leaves s (.drw x y n) { s.setV vf b with fb := fb, frameDirty := true }
  | ret (k : Fin 16) : Leaves s .ret { s with sp := k.castSucc, pc := s.stack[k.val] }
  | call (nnn : BitVec 12) (h : s.sp.val < 16) :
    Leaves s (.call nnn) { s with
      stack := s.stack.set s.sp.val s.pc, sp := ⟨s.sp.val + 1, by omega⟩, pc := zextAddr nnn }
  | jump (i : Instr) (a : Word) (h : a.toNat ≤ 0x10FE) : Leaves s i { s with pc := a }
  | skip (i : Instr) (p : Prop) [Decidable p] : Leaves s i { s with pc := if p then s.pc + 2 else s.pc }
  | poll (x : Reg) : Leaves s (.ldVxK x) { s with pc := s.pc - 2 }
  | takeKey (x : Reg) (v : Vector Byte 16) (keys : Vector Bool 16) (draws : Nat)
    (hv : ∀ r : Reg, r ≠ x → v[r.val] = s.v[r.val]) (hk : keys ≠ s.keys → s.cfg.fx0aClearsKey = true) :
    Leaves s (.ldVxK x) { s with v := v, keys := keys, keyDraws := draws }
  | regs (i : Instr) (v : Vector Byte 16) (draws : Nat)
    (h : ∀ r : Reg, ¬ mayWriteReg i r → v[r.val] = s.v[r.val]) :
    Leaves s i { s with v := v, randomDraws := draws }
  | index (i : Instr) (a : Word) (h : (∃ nnn, i = .ldI nnn) ∨ ∃ x, i = .addIVx x ∨ i = .ldFVx x) :
    Leaves s i { s with i := a }
  | timers (i : Instr) (dt st : Byte) : Leaves s i { s with dt := dt, st := st }
  | store (i : Instr) (a : Nat) (bs : List Byte) (h : ∃ x, i = .ldBVx x ∨ i = .ldIVx x)
    (hlo : 0x50 ≤ a) (hhi : a + bs.length ≤ 4096) :
    Leaves s i { s with mem := Memory.writeList s.cfg.fontset s.mem a bs }

/-- `i` completes in `s` and leaves one of the states above, or raises a fault. -/
def LeavesOrRaises (i : Instr) (s : State) : Prop :=
  (∃ t, exec i s = .next t ∧ Leaves s i t) ∨ ∃ f, Raises i s f

/-- An instruction that writes one register it may write. -/
theorem Leaves.setV (s : State) (i : Instr) (x : Reg) (b : Byte) (h : mayWriteReg i x) : Leaves s i (s.setV x b) :=
  .regs i _ _ fun r hr => State.getV_setV_ne s x r b (by rintro rfl; exact hr h)

/-- An instruction that writes V[x] and then, or before, the flag. -/
theorem Leaves.writeWithFlag (s : State) (i : Instr) (x : Reg) (flag : Byte) (result : State → Byte)
    (hx : mayWriteReg i x) (hf : mayWriteReg i vf) : Leaves s i (writeWithFlag x flag result s) := by
  rw [writeWithFlag_eq]
  exact .regs i _ _ fun r hr =>
    writeWithFlag_other x r flag result s (by rintro rfl; exact hr hx) (by rintro rfl; exact hr hf)

theorem ret_leaves_or_raises (s : State) : LeavesOrRaises .ret s := by
  rcases Fin.eq_zero_or_eq_succ s.sp with h | ⟨k, h⟩
  · exact .inr ⟨_, raises_ret s h⟩
  · exact .inl ⟨_, exec_ret_ok s k (congrArg Fin.val h), .ret k⟩

theorem call_leaves_or_raises (nnn : BitVec 12) (s : State) : LeavesOrRaises (.call nnn) s := by
  rcases Fin.eq_castSucc_or_eq_last s.sp with ⟨k, h⟩ | h
  · exact .inl ⟨_, exec_call_ok nnn s (h ▸ k.isLt), .call nnn (h ▸ k.isLt)⟩
  · exact .inr ⟨_, raises_call nnn s h⟩

theorem skp_leaves_or_raises (x : Reg) (s : State) : LeavesOrRaises (.skp x) s := by
  rcases byte_key_cases (s.getV x) with ⟨k, h⟩ | h
  · exact .inl ⟨_, setsPc_skp h, .skip ..⟩
  · exact .inr ⟨_, raises_skp h⟩

theorem sknp_leaves_or_raises (x : Reg) (s : State) : LeavesOrRaises (.sknp x) s := by
  rcases byte_key_cases (s.getV x) with ⟨k, h⟩ | h
  · exact .inl ⟨_, setsPc_sknp h, .skip ..⟩
  · exact .inr ⟨_, raises_sknp h⟩

theorem drw_leaves_or_raises (x y : Reg) (n : Nat) (s : State) : LeavesOrRaises (.drw x y n) s := by
  rcases loadBytes_cases s n (s.effAddr 0) with ⟨rows, e, _⟩ | ⟨a, _, _, _, e⟩
  · exact .inl ⟨_, by rw [exec, execDrw, e], .drw ..⟩
  · exact .inr ⟨_, raises_of_takeFault (by rw [exec, execDrw, e]) rfl⟩

theorem ldVxI_leaves_or_raises (x : Reg) (s : State) : LeavesOrRaises (.ldVxI x) s := by
  by_cases h : s.effAddr x.val ≤ 4095
  · refine .inl ⟨_, exec_ldVxI_ok x s h, .regs _ _ _ fun r hr => ?_⟩
    rw [writeRegs_range_getElem]
    exact if_neg (fun hlt => hr (Nat.le_of_lt_succ hlt))
  · obtain ⟨k, hk, hbefore, hr⟩ := s.exists_first_out_of_range x.val (Nat.not_le.1 h)
    exact .inr ⟨_, raises_ldVxI x s k hk hbefore hr⟩

theorem store_leaves_or_raises {i : Instr} {s : State} {bs : List Byte}
    (h : exec i s = orFault (storeBytes s (s.effAddr 0) bs) s) (hbs : bs ≠ [])
    (hi : ∃ x, i = .ldBVx x ∨ i = .ldIVx x) : LeavesOrRaises i s := by
  rcases storeBytes_cases s bs (s.effAddr 0) with ⟨e, hfit⟩ | ⟨_, _, e⟩ | ⟨_, _, _, e⟩
  · obtain ⟨hlo, hhi⟩ := hfit.resolve_left hbs
    exact .inl ⟨_, by rw [h, e, orFault_ok], .store i _ bs hi hlo hhi⟩
  · exact .inr ⟨_, raises_of_takeFault (by rw [h, e, orFault_error]) rfl⟩
  · exact .inr ⟨_, raises_of_takeFault (by rw [h, e, orFault_error]) rfl⟩

theorem State.keys_takeKey_of_not_clears (s : State) (x : Reg) (k : Key) (draws : Nat)
    (h : ¬ s.cfg.fx0aClearsKey = true) : (s.takeKey x k draws).keys = s.keys := by
  rw [State.takeKey, if_neg h]
  rfl

theorem ldVxK_leaves (x : Reg) (s : State) : LeavesOrRaises (.ldVxK x) s := by
  by_cases h : ∃ k, s.keyDown k = true
  · obtain ⟨k, draws, _, he⟩ := exec_ldVxK_of_key x s h
    rw [s.takeKey_frame] at he
    refine .inl ⟨_, he, .takeKey x _ _ _ (fun r hr => ?_) fun hne => ?_⟩
    · exact (s.getV_takeKey x k draws r).trans (if_neg hr)
    · exact not_not.1 fun hc => hne (s.keys_takeKey_of_not_clears x k draws hc)
  · have hno : ∀ k, s.keyDown k = false := fun k => Bool.eq_false_iff.2 fun hk => h ⟨k, hk⟩
    exact .inl ⟨_, setsPc_ldVxK_of_no_key x s hno, .poll _⟩

theorem zextAddr_le (nnn : BitVec 12) : (zextAddr nnn).toNat ≤ 0xFFF := by
  rw [zextAddr_toNat]
  exact Nat.le_of_lt_succ nnn.isLt

theorem jpV0_target_le (nnn : BitVec 12) (b : Byte) : (zextAddr nnn + zextByte b).toNat ≤ 0x10FE := by
  have hn := nnn.isLt
  have hb := b.isLt
  rw [zextAddr_add_zextByte_toNat]
  omega

theorem exec_leaves_or_raises (i : Instr) (s : State) : LeavesOrRaises i s := by
  cases i with
  | cls => exact .inl ⟨_, rfl, .cls⟩
  | ret => exact ret_leaves_or_raises s
  | jp nnn => exact .inl ⟨_, setsPc_jp nnn s, .jump _ _ ((zextAddr_le nnn).trans (by decide))⟩
  | jpV0 nnn => exact .inl ⟨_, setsPc_jpV0 nnn s, .jump _ _ (jpV0_target_le nnn _)⟩
  | call nnn => exact call_leaves_or_raises nnn s
  | seImm x kk => exact .inl ⟨_, setsPc_seImm x kk s, .skip ..⟩
  | sneImm x kk => exact .inl ⟨_, setsPc_sneImm x kk s, .skip ..⟩
  | seReg x y => exact .inl ⟨_, setsPc_seReg x y s, .skip ..⟩
  | sneReg x y => exact .inl ⟨_, setsPc_sneReg x y s, .skip ..⟩
  | skp x => exact skp_leaves_or_raises x s
  | sknp x => exact sknp_leaves_or_raises x s
  | ldImm | addImm | ldReg | orReg | andReg | xorReg | ldVxDt => exact .inl ⟨_, rfl, .setV _ _ _ _ rfl⟩
  | addReg | sub | shr | subn | shl =>
    exact .inl ⟨_, rfl, .writeWithFlag _ _ _ _ _ (.inl rfl) (.inr rfl)⟩
  | rnd x kk =>
    exact .inl ⟨_, rfl, .regs _ _ _ fun r hr => State.getV_setV_ne s x r _ hr⟩
  | drw x y n => exact drw_leaves_or_raises x y n s
  | ldI nnn => exact .inl ⟨_, rfl, .index _ _ (.inl ⟨nnn, rfl⟩)⟩
  | addIVx x => exact .inl ⟨_, rfl, .index _ _ (.inr ⟨x, .inl rfl⟩)⟩
  | ldFVx x => exact .inl ⟨_, rfl, .index _ _ (.inr ⟨x, .inr rfl⟩)⟩
  | ldDtVx | ldStVx => exact .inl ⟨_, rfl, .timers ..⟩
  | ldVxK x => exact ldVxK_leaves x s
  | ldBVx x => exact store_leaves_or_raises rfl (by simp [decimalDigits]) ⟨x, .inl rfl⟩
  | ldIVx x =>
    exact store_leaves_or_raises rfl (List.ne_nil_of_length_pos (by simp [State.regBlock_length])) ⟨x, .inr rfl⟩
  | ldVxI x => exact ldVxI_leaves_or_raises x s

/-- A step that answers a next state raised a fault, which changes the status alone, or ran the decoded instruction,
with pc advanced, to one of the states it may leave, and then wrote the timers and the status. -/
theorem step_leaves {s t : State} (h : step s = .next t) :
    (∃ f, t = { s with status := .faulted f }) ∨
    ∃ i u dt st status, s.runs i ∧ Leaves s.advancePc i u ∧
      t = { u with dt := dt, st := st, status := status } := by
  obtain ⟨_, hf | ⟨i, u, hrun, hu, hul, rfl⟩⟩ := step_next_cases h
  · exact .inl hf
  · refine .inr ⟨i, u, _, _, _, hrun, ?_, endStep_live u hul⟩
    rcases exec_leaves_or_raises i s.advancePc with ⟨u', hu', hw⟩ | ⟨f, hr⟩
    · cases hu'.symm.trans hu
      exact hw
    · cases hr.symm.trans hu
      cases hul

/-! ### Field by field -/

section

variable {s t : State} {i : Instr}

theorem Leaves.fb_writers (h : Leaves s i t) (hne : t.fb ≠ s.fb) : i = .cls ∨ ∃ x y n, i = .drw x y n := by
  cases h with
  | cls => exact .inl rfl
  | drw x y n => exact .inr ⟨x, y, n, rfl⟩
  | _ => exact absurd rfl hne

theorem Leaves.frameDirty_writers (h : Leaves s i t) (hne : t.frameDirty ≠ s.frameDirty) :
    t.frameDirty = true ∧ (i = .cls ∨ ∃ x y n, i = .drw x y n) := by
  cases h with
  | cls => exact ⟨rfl, .inl rfl⟩
  | drw x y n => exact ⟨rfl, .inr ⟨x, y, n, rfl⟩⟩
  | _ => exact absurd rfl hne

theorem Leaves.stack_writers (h : Leaves s i t) (hne : t.stack ≠ s.stack) : ∃ nnn, i = .call nnn := by
  cases h with
  | call nnn => exact ⟨nnn, rfl⟩
  | _ => exact absurd rfl hne

theorem Leaves.sp_writers (h : Leaves s i t) (hne : t.sp ≠ s.sp) : i = .ret ∨ ∃ nnn, i = .call nnn := by
  cases h with
  | ret => exact .inl rfl
  | call nnn => exact .inr ⟨nnn, rfl⟩
  | _ => exact absurd rfl hne

theorem Leaves.keys_writers (h : Leaves s i t) (hne : t.keys ≠ s.keys) :
    s.cfg.fx0aClearsKey = true ∧ ∃ x, i = .ldVxK x := by
  cases h with
  | takeKey x v keys draws hv hk => exact ⟨hk hne, x, rfl⟩
  | _ => exact absurd rfl hne

theorem Leaves.i_writers (h : Leaves s i t) (hne : t.i ≠ s.i) :
    (∃ nnn, i = .ldI nnn) ∨ ∃ x, i = .addIVx x ∨ i = .ldFVx x := by
  cases h with
  | index _ a hi => exact hi
  | _ => exact absurd rfl hne

theorem Leaves.cfg_eq (h : Leaves s i t) : t.cfg = s.cfg := by
  cases h <;> rfl

/-- Memory is as it was, or a block above the font and inside the address space was stored. -/
theorem Leaves.mem_cases (h : Leaves s i t) :
    t.mem = s.mem ∨
    ∃ a bs, (∃ x, i = .ldBVx x ∨ i = .ldIVx x) ∧ 0x50 ≤ a ∧ a + bs.length ≤ 4096 ∧
      t.mem = Memory.writeList s.cfg.fontset s.mem a bs := by
  cases h with
  | store _ a bs hi hlo hhi => exact .inr ⟨a, bs, hi, hlo, hhi, rfl⟩
  | _ => exact .inl rfl

theorem Leaves.getV_eq (h : Leaves s i t) {r : Reg} (hr : ¬ mayWriteReg i r) : t.getV r = s.getV r := by
  cases h with
  | drw x y n b fb => exact State.getV_setV_ne s vf r b hr
  | takeKey x v keys draws hv hk => exact hv r hr
  | regs _ v draws hv => exact hv r hr
  | _ => rfl

/-- Where pc and the return addresses may get to, when the handler sees a pc that was fetched from and advanced. -/
theorem Leaves.pcBounded (h : Leaves s i t) (hlo : 2 ≤ s.pc.toNat) (hhi : s.pc.toNat ≤ 0x1000)
    (hst : ∀ k : Fin 16, (s.stack[k.val]).toNat ≤ 0x1000) : t.pcBounded := by
  have hpc : s.pc.toNat ≤ 0x10FE := hhi.trans (by decide)
  cases h with
  | ret k => exact ⟨(hst k).trans (by decide), hst⟩
  | call nnn h =>
    refine ⟨(zextAddr_le nnn).trans (by decide), fun k => ?_⟩
    rw [Vector.getElem_set]
    split
    · exact hhi
    · exact hst k
  | jump _ a h => exact ⟨h, hst⟩
  | skip _ p =>
    refine ⟨?_, hst⟩
    show (if p then s.pc + 2 else s.pc).toNat ≤ 0x10FE
    split
    · bv_omega
    · exact hpc
  | poll x => exact ⟨show (s.pc - 2).toNat ≤ 0x10FE by bv_omega, hst⟩
  | _ => exact ⟨hpc, hst⟩

end

/-! ### The invariants (R12, R24) -/

/-- Settles O16: a step leaves memory or stores one block inside the address space. -/
theorem step_keeps_memory_canonical : Obligations.Step_keeps_memory_canonical := by
  intro s t hwf h
  obtain ⟨f, rfl⟩ | ⟨i, u, dt, st, status, _, hw, rfl⟩ := step_leaves h
  · exact hwf
  · show Memory.wf u.cfg.fontset u.mem
    rw [hw.cfg_eq]
    rcases hw.mem_cases with e | ⟨a, bs, _, _, hhi, e⟩
    · rwa [e]
    · rw [e]
      exact Memory.writeList_wf _ bs s.mem a hwf hhi

theorem Leaves.readByte_font {s t : State} {i : Instr} (h : Leaves s i t) {a : Nat} (ha : a ≤ 0x04F) :
    t.readByte a = s.readByte a := by
  rw [State.readByte, h.cfg_eq]
  rcases h.mem_cases with e | ⟨b, bs, _, hlo, _, e⟩
  · rw [e, State.readByte]
  · rw [e, Memory.read_writeList, dif_neg (by omega), State.readByte]

theorem step_keeps_cfg {s t : State} (h : step s = .next t) : t.cfg = s.cfg := by
  obtain ⟨f, rfl⟩ | ⟨i, u, dt, st, status, _, hw, rfl⟩ := step_leaves h
  · rfl
  · exact hw.cfg_eq

theorem step_keeps_font_bytes {s t : State} (h : step s = .next t) {a : Nat} (ha : a ≤ 0x04F) :
    t.readByte a = s.readByte a := by
  obtain ⟨f, rfl⟩ | ⟨i, u, dt, st, status, _, hw, rfl⟩ := step_leaves h
  · rfl
  · exact hw.readByte_font ha

/-- Settles O17: the only block a step stores begins above the font. -/
theorem step_keeps_the_font_region : Obligations.Step_keeps_the_font_region := by
  refine fun s t h => ⟨fun a => step_keeps_font_bytes h, fun hfont a => ?_⟩
  rw [step_keeps_font_bytes h (Nat.le_of_lt_succ a.isLt), step_keeps_cfg h]
  exact hfont a

theorem pc_le_of_fetches {s : State} {op : Word} (h : s.fetches op) : s.pc.toNat ≤ 4094 := by
  by_contra hp
  cases (fetch_error s (Nat.not_le.1 hp)).symm.trans h

/-- Settles O18: an instruction runs only from pc up to 4094, so the handler sees at most 0x1000. -/
theorem step_keeps_pc_bounded : Obligations.Step_keeps_pc_bounded := by
  intro s t hb h
  obtain ⟨f, rfl⟩ | ⟨i, u, dt, st, status, ⟨_, op, hf, _⟩, hw, rfl⟩ := step_leaves h
  · exact hb
  · have hp := pc_le_of_fetches hf
    have hadv : s.advancePc.pc.toNat = s.pc.toNat + 2 := by
      rw [State.advancePc_pc]
      bv_omega
    exact hw.pcBounded (by omega) (by omega) hb.2

/-! ### Who writes what (R9, R10, R13, R14, R17 to R19, R23) -/

/-- Settles O20: the fields an instruction may write, and a fault writes none of them. -/
theorem only_the_named_instructions_write_each_state :
    Obligations.Only_the_named_instructions_write_each_state := by
  intro s t h
  obtain ⟨f, rfl⟩ | ⟨i, u, dt, st, status, hrun, hw, rfl⟩ := step_leaves h
  · exact ⟨absurd rfl, absurd rfl, absurd rfl, absurd rfl, absurd rfl, absurd rfl, absurd rfl, rfl⟩
  · refine ⟨fun hne => ?_, fun hne => ?_, fun hne => ?_, fun hne => ?_, fun hne => ?_, fun hne => ?_, fun hne => ?_,
      hw.cfg_eq⟩
    · obtain rfl | ⟨x, y, n, rfl⟩ := hw.fb_writers hne
      · exact .inl hrun
      · exact .inr ⟨x, y, n, hrun⟩
    · obtain ⟨hd, rfl | ⟨x, y, n, rfl⟩⟩ := hw.frameDirty_writers hne
      · exact ⟨hd, .inl hrun⟩
      · exact ⟨hd, .inr ⟨x, y, n, hrun⟩⟩
    · obtain ⟨nnn, rfl⟩ := hw.stack_writers hne
      exact ⟨nnn, hrun⟩
    · obtain rfl | ⟨nnn, rfl⟩ := hw.sp_writers hne
      · exact .inl hrun
      · exact .inr ⟨nnn, hrun⟩
    · obtain ⟨hc, x, rfl⟩ := hw.keys_writers hne
      exact ⟨hc, x, hrun⟩
    · obtain ⟨nnn, rfl⟩ | ⟨x, rfl | rfl⟩ := hw.i_writers hne
      · exact .inl ⟨nnn, hrun⟩
      · exact .inr ⟨x, .inl hrun⟩
      · exact .inr ⟨x, .inr hrun⟩
    · obtain ⟨_, _, ⟨x, rfl | rfl⟩, _⟩ := hw.mem_cases.resolve_left hne
      · exact ⟨x, .inl hrun⟩
      · exact ⟨x, .inr hrun⟩

theorem eq_vf_of_vf_le {x : Reg} (h : vf ≤ x) : x = vf := Fin.le_antisymm (Fin.le_last x) h

/-- Settles O21: the instructions that may write VF, and a fault writes no register. -/
theorem only_flag_instructions_or_destination_change_VF :
    Obligations.Only_flag_instructions_or_destination_change_VF := by
  intro s t h hne
  obtain ⟨f, rfl⟩ | ⟨i, u, dt, st, status, hrun, hw, rfl⟩ := step_leaves h
  · exact absurd rfl hne
  · have hi : mayWriteReg i vf := not_not.1 fun hi => hne (hw.getV_eq hi)
    cases i with
    | ldImm x kk => cases hi; exact .inr (.inr (.inl ⟨kk, .inl hrun⟩))
    | addImm x kk => cases hi; exact .inr (.inr (.inl ⟨kk, .inr (.inl hrun)⟩))
    | rnd x kk => cases hi; exact .inr (.inr (.inl ⟨kk, .inr (.inr hrun)⟩))
    | ldReg x y => cases hi; exact .inr (.inr (.inr (.inl ⟨y, .inl hrun⟩)))
    | orReg x y => cases hi; exact .inr (.inr (.inr (.inl ⟨y, .inr (.inl hrun)⟩)))
    | andReg x y => cases hi; exact .inr (.inr (.inr (.inl ⟨y, .inr (.inr (.inl hrun))⟩)))
    | xorReg x y => cases hi; exact .inr (.inr (.inr (.inl ⟨y, .inr (.inr (.inr hrun))⟩)))
    | addReg x y => exact .inl ⟨x, y, .inl hrun⟩
    | sub x y => exact .inl ⟨x, y, .inr (.inl hrun)⟩
    | shr x y => exact .inl ⟨x, y, .inr (.inr (.inl hrun))⟩
    | subn x y => exact .inl ⟨x, y, .inr (.inr (.inr (.inl hrun)))⟩
    | shl x y => exact .inl ⟨x, y, .inr (.inr (.inr (.inr hrun)))⟩
    | drw x y n => exact .inr (.inl ⟨x, y, n, hrun⟩)
    | ldVxDt x => cases hi; exact .inr (.inr (.inr (.inr (.inl hrun))))
    | ldVxK x => cases hi; exact .inr (.inr (.inr (.inr (.inr (.inl hrun)))))
    | ldVxI x => exact .inr (.inr (.inr (.inr (.inr (.inr (eq_vf_of_vf_le hi ▸ hrun))))))
    | _ => exact hi.elim

end Sys2Proof.Machine
end

section
/-! PROOFS. Noninterference (10_state.md §5 and §7): no step reads the sound timer or frame_dirty (R16, R19). -/

namespace Sys2Proof.Machine

/-- The state with another sound timer and another frame_dirty. -/
def State.withStDirty (s : State) (b : Byte) (d : Bool) : State := { s with st := b, frameDirty := d }

/-- `i` answers in `s` and in `s` with any other sound timer and frame_dirty the same state, but for those two. -/
def StDirtyUnread (i : Instr) (s : State) : Prop :=
  ∀ b d, ∃ t b' d', exec i s = .next t ∧ exec i (s.withStDirty b d) = .next (t.withStDirty b' d')

theorem writeWithFlag_withStDirty (x : Reg) (flag : Byte) (result : State → Byte) (s : State) (b : Byte) (d : Bool)
    (h : ∀ u : State, result (u.withStDirty b d) = result u) :
    writeWithFlag x flag result (s.withStDirty b d) = (writeWithFlag x flag result s).withStDirty b d := by
  cases ho : s.cfg.flagOrder with
  | sequential =>
    rw [writeWithFlag_of_sequential ho, writeWithFlag_of_sequential (s := s.withStDirty b d) ho]
    exact congrArg (fun r => ((s.withStDirty b d).setV vf flag).setV x r) (h (s.setV vf flag))
  | flagLast =>
    rw [writeWithFlag_of_flagLast ho, writeWithFlag_of_flagLast (s := s.withStDirty b d) ho, h]
    rfl

theorem ret_stDirtyUnread (s : State) : StDirtyUnread .ret s := by
  intro b d
  rcases Fin.eq_zero_or_eq_succ s.sp with h | ⟨k, h⟩
  · exact ⟨_, b, d, raises_ret s h, raises_ret (s.withStDirty b d) h⟩
  · have hk : s.sp.val = k.val + 1 := congrArg Fin.val h
    exact ⟨_, b, d, exec_ret_ok s k hk, exec_ret_ok (s.withStDirty b d) k hk⟩

theorem call_stDirtyUnread (nnn : BitVec 12) (s : State) : StDirtyUnread (.call nnn) s := by
  intro b d
  rcases Fin.eq_castSucc_or_eq_last s.sp with ⟨k, h⟩ | h
  · have hk : s.sp.val < 16 := h ▸ k.isLt
    exact ⟨_, b, d, exec_call_ok nnn s hk, exec_call_ok nnn (s.withStDirty b d) hk⟩
  · exact ⟨_, b, d, raises_call nnn s h, raises_call nnn (s.withStDirty b d) h⟩

theorem skp_stDirtyUnread (x : Reg) (s : State) : StDirtyUnread (.skp x) s := by
  intro b d
  rcases byte_key_cases (s.getV x) with ⟨k, h⟩ | h
  · exact ⟨_, b, d, setsPc_skp h, setsPc_skp (s := s.withStDirty b d) h⟩
  · exact ⟨_, b, d, raises_skp h, raises_skp (s := s.withStDirty b d) h⟩

theorem sknp_stDirtyUnread (x : Reg) (s : State) : StDirtyUnread (.sknp x) s := by
  intro b d
  rcases byte_key_cases (s.getV x) with ⟨k, h⟩ | h
  · exact ⟨_, b, d, setsPc_sknp h, setsPc_sknp (s := s.withStDirty b d) h⟩
  · exact ⟨_, b, d, raises_sknp h, raises_sknp (s := s.withStDirty b d) h⟩

theorem loadBytes_withStDirty (s : State) (a n : Nat) (b : Byte) (d : Bool) :
    loadBytes (s.withStDirty b d) a n = loadBytes s a n := by
  induction n generalizing a with
  | zero => rfl
  | succ n ih =>
    rw [loadBytes, loadBytes, ih]
    rfl

theorem drw_stDirtyUnread (x y : Reg) (n : Nat) (s : State) : StDirtyUnread (.drw x y n) s := by
  intro b d
  have hload : loadBytes (s.withStDirty b d) ((s.withStDirty b d).effAddr 0) n = loadBytes s (s.effAddr 0) n :=
    loadBytes_withStDirty ..
  simp only [exec, execDrw, hload]
  cases loadBytes s (s.effAddr 0) n with
  | error f => exact ⟨_, b, d, rfl, rfl⟩
  | ok rows => exact ⟨_, b, true, rfl, rfl⟩

theorem ldVxI_stDirtyUnread (x : Reg) (s : State) : StDirtyUnread (.ldVxI x) s := by
  intro b d
  have hload : loadBytes (s.withStDirty b d) ((s.withStDirty b d).effAddr 0) (x.val + 1) =
      loadBytes s (s.effAddr 0) (x.val + 1) := loadBytes_withStDirty ..
  simp only [exec, execLdVxI, hload]
  cases loadBytes s (s.effAddr 0) (x.val + 1) with
  | error f => exact ⟨_, b, d, rfl, rfl⟩
  | ok bs => exact ⟨_, b, d, rfl, rfl⟩

/-- Which of the three cases of a block store holds is read off the block's place alone. -/
theorem orFault_storeBytes_withStDirty (s : State) (bs : List Byte) (a : Nat) (b : Byte) (d : Bool) :
    ∃ t, orFault (storeBytes s a bs) s = .next t ∧
      orFault (storeBytes (s.withStDirty b d) a bs) (s.withStDirty b d) = .next (t.withStDirty b d) := by
  rcases storeBytes_cases s bs a with ⟨e, rfl | ⟨hlo, hhi⟩⟩ | ⟨hne, hf, e⟩ | ⟨hne, hlo, hhi, e⟩
  · exact ⟨s, rfl, rfl⟩
  · rw [e, storeBytes_ok _ bs a hhi hlo]
    exact ⟨_, rfl, rfl⟩
  · rw [e, storeBytes_font_error _ bs a hne hf]
    exact ⟨_, rfl, rfl⟩
  · rw [e, storeBytes_range_error _ bs a hne hlo hhi]
    exact ⟨_, rfl, rfl⟩

theorem stDirtyUnread_of_store {i : Instr} {s : State} {bs : List Byte}
    (h : ∀ b d, exec i (s.withStDirty b d) =
      orFault (storeBytes (s.withStDirty b d) (s.effAddr 0) bs) (s.withStDirty b d)) : StDirtyUnread i s := by
  intro b d
  obtain ⟨t, ht, ht'⟩ := orFault_storeBytes_withStDirty s bs (s.effAddr 0) b d
  exact ⟨t, b, d, (h s.st s.frameDirty).trans ht, (h b d).trans ht'⟩

theorem drawKey_fst_withStDirty (k : Key) (ks : List Key) (s : State) (b : Byte) (d : Bool) :
    (drawKey k ks (s.withStDirty b d)).1 = (drawKey k ks s).1 := by
  cases ks <;> rfl

theorem State.takeKey_withStDirty (s : State) (x : Reg) (k : Key) (draws : Nat) (b : Byte) (d : Bool) :
    (s.withStDirty b d).takeKey x k draws = (s.takeKey x k draws).withStDirty b d := by
  simp only [State.takeKey, apply_ite (State.withStDirty · b d)]
  rfl

/-- The key Fx0A takes, by the draw at the counter. -/
theorem exec_ldVxK_of_pressedKeys {s : State} {k : Key} {ks : List Key} (x : Reg) (h : s.pressedKeys = k :: ks) :
    exec (.ldVxK x) s =
      .next (s.takeKey x (drawKey k ks s).1 (s.keyDraws + if ks = [] then 0 else 1)) := by
  rw [exec, execLdVxK, h, State.takeKey, ← drawKey_state k ks s]

theorem ldVxK_stDirtyUnread (x : Reg) (s : State) : StDirtyUnread (.ldVxK x) s := by
  intro b d
  cases hp : s.pressedKeys with
  | nil =>
    have hno := s.pressedKeys_eq_nil_iff.1 hp
    exact ⟨_, b, d, setsPc_ldVxK_of_no_key x s hno, setsPc_ldVxK_of_no_key x (s.withStDirty b d) hno⟩
  | cons k ks =>
    refine ⟨_, b, d, exec_ldVxK_of_pressedKeys x hp, ?_⟩
    rw [exec_ldVxK_of_pressedKeys (s := s.withStDirty b d) x hp, drawKey_fst_withStDirty, ← State.takeKey_withStDirty]
    rfl

theorem exec_stDirtyUnread (i : Instr) (s : State) : StDirtyUnread i s := by
  cases i with
  | ret => exact ret_stDirtyUnread s
  | call nnn => exact call_stDirtyUnread nnn s
  | skp x => exact skp_stDirtyUnread x s
  | sknp x => exact sknp_stDirtyUnread x s
  | seImm x kk => exact fun b d => ⟨_, b, d, setsPc_seImm x kk s, setsPc_seImm x kk (s.withStDirty b d)⟩
  | sneImm x kk => exact fun b d => ⟨_, b, d, setsPc_sneImm x kk s, setsPc_sneImm x kk (s.withStDirty b d)⟩
  | seReg x y => exact fun b d => ⟨_, b, d, setsPc_seReg x y s, setsPc_seReg x y (s.withStDirty b d)⟩
  | sneReg x y => exact fun b d => ⟨_, b, d, setsPc_sneReg x y s, setsPc_sneReg x y (s.withStDirty b d)⟩
  | drw x y n => exact drw_stDirtyUnread x y n s
  | ldVxI x => exact ldVxI_stDirtyUnread x s
  | ldBVx x => exact stDirtyUnread_of_store (bs := decimalDigits (s.getV x)) fun _ _ => rfl
  | ldIVx x => exact stDirtyUnread_of_store (bs := s.regBlock x) fun _ _ => rfl
  | ldVxK x => exact ldVxK_stDirtyUnread x s
  | cls => exact fun b _ => ⟨_, b, true, rfl, rfl⟩
  | ldStVx x => exact fun _ d => ⟨_, s.getV x, d, rfl, rfl⟩
  | jp | jpV0 | ldImm | addImm | ldReg | orReg | andReg | xorReg | ldI | rnd | ldVxDt | ldDtVx | addIVx | ldFVx =>
    exact fun b d => ⟨_, b, d, rfl, rfl⟩
  | addReg | sub | shr | subn | shl =>
    exact fun b d => ⟨_, b, d, rfl, congrArg _ (writeWithFlag_withStDirty _ _ _ s b d fun _ => rfl)⟩

/-- The tick writes the sound timer from itself alone, and nothing else from it. -/
theorem endStep_withStDirty (s : State) (b : Byte) (d : Bool) :
    ∃ b', endStep (s.withStDirty b d) = (endStep s).withStDirty b' d := by
  cases hs : s.status with
  | faulted f => exact ⟨b, by rw [endStep_faulted s f hs, endStep_faulted (s.withStDirty b d) f hs]⟩
  | ready | running =>
    have hl : s.live := by simp [State.live, hs, Status.isFaulted]
    rw [endStep_live s hl, endStep_live (s.withStDirty b d) hl]
    exact ⟨_, rfl⟩

/-- The three places a step of a live engine can end, each the same whatever ST and frame_dirty hold. -/
theorem step_withStDirty (s : State) (hl : s.live) (b : Byte) (d : Bool) :
    ∃ t b' d', step s = .next t ∧ step (s.withStDirty b d) = .next (t.withStDirty b' d') := by
  by_cases hp : s.pc.toNat ≤ 4094
  · have hf := fetch_ok s hp
    have hf' : fetch (s.withStDirty b d) = fetch s := rfl
    by_cases hd : ∃ i, decode (wordOfBytes (s.readByte s.pc.toNat) (s.readByte (s.pc.toNat + 1))) = .ok i
    · obtain ⟨i, hi⟩ := hd
      obtain ⟨u, c, e, hu, hu'⟩ := exec_stDirtyUnread i s.advancePc b d
      obtain ⟨c', hend⟩ := endStep_withStDirty u c e
      refine ⟨endStep u, c', e, ?_, ?_⟩
      · rw [step_exec s _ i hl hf hi, hu, completeStep]
      · calc step (s.withStDirty b d) = completeStep (exec i (s.advancePc.withStDirty b d)) :=
              step_exec _ _ i hl (hf'.trans hf) hi
          _ = .next (endStep (u.withStDirty c e)) := congrArg completeStep hu'
          _ = .next ((endStep u).withStDirty c' e) := congrArg _ hend
    · have hno := not_exists.1 hd
      exact ⟨_, b, d, step_illegal hl hf hno, step_illegal (s := s.withStDirty b d) hl (hf'.trans hf) hno⟩
  · have hp' := Nat.not_le.1 hp
    exact ⟨_, b, d, step_fetch_error s hl hp', step_fetch_error (s.withStDirty b d) hl hp'⟩

/-- Settles O22: fetch, decode, every meaning and the end of a step answer alike but for ST and frame_dirty. -/
theorem sound_timer_and_frame_dirty_are_never_read : Obligations.Sound_timer_and_frame_dirty_are_never_read := by
  intro s t b d h
  obtain ⟨hl, _⟩ := step_next_cases h
  obtain ⟨t', b', d', ht, ht'⟩ := step_withStDirty s hl b d
  cases ht.symm.trans h
  exact ⟨_, ht', rfl⟩

end Sys2Proof.Machine
end

section
/-! PROOFS. Host schedules and parked engines (60_exceptions.md §5, 70_reset_and_hazards.md §3 and §6): the
invariants at reset and along any host operations, and the self-jump (R109, R113, R125). -/

namespace Sys2Proof.Machine

/-! ### The invariants at reset (R12, R25, R113) -/

theorem memWf_resetAfterDraws (cfg : Config) (r k : Nat) : (State.resetAfterDraws cfg r k).memWf :=
  Memory.wf_nil _

theorem fontIntact_resetAfterDraws (cfg : Config) (r k : Nat) : (State.resetAfterDraws cfg r k).fontIntact :=
  fun a => (State.readByte_resetAfterDraws cfg r k a.val).trans (dif_pos a.isLt)

theorem pcBounded_resetAfterDraws (cfg : Config) (r k : Nat) : (State.resetAfterDraws cfg r k).pcBounded := by
  refine ⟨show (0x0200#16).toNat ≤ 0x10FE by decide, fun j => ?_⟩
  rw [State.stack_resetAfterDraws]
  decide

/-- Settles O15: power-on is a reset after no draws, which lists no memory and zeroes the stack. -/
theorem reset_meets_the_invariants : Obligations.Reset_meets_the_invariants := fun cfg =>
  ⟨memWf_resetAfterDraws cfg 0 0, fontIntact_resetAfterDraws cfg 0 0, pcBounded_resetAfterDraws cfg 0 0, rfl⟩

/-! ### The invariants along host operations (R103, R104, R108, R109, R115) -/

/-- What a host operation keeps of `s` in `t`: the three invariants, when `s` meets them, and the parameters. -/
def KeepsInvariants (s t : State) : Prop :=
  (s.memWf → s.fontIntact → s.pcBounded → t.memWf ∧ t.fontIntact ∧ t.pcBounded) ∧ t.cfg = s.cfg

theorem KeepsInvariants.trans {s t u : State} (h : KeepsInvariants s t) (h' : KeepsInvariants t u) :
    KeepsInvariants s u := by
  refine ⟨fun hm hf hp => ?_, h'.2.trans h.2⟩
  obtain ⟨hm', hf', hp'⟩ := h.1 hm hf hp
  exact h'.1 hm' hf' hp'

/-- An operation that writes no field the invariants speak of. -/
theorem keepsInvariants_of_eq {s t : State} (hmem : t.mem = s.mem) (hcfg : t.cfg = s.cfg) (hpc : t.pc = s.pc)
    (hstack : t.stack = s.stack) : KeepsInvariants s t := by
  refine ⟨fun hm hf hp => ?_, hcfg⟩
  simp only [State.memWf, State.fontIntact, State.pcBounded, State.readByte, hmem, hcfg, hpc, hstack]
  exact ⟨hm, hf, hp⟩

theorem KeepsInvariants.refl (s : State) : KeepsInvariants s s := keepsInvariants_of_eq rfl rfl rfl rfl

theorem hostReset_keepsInvariants (s : State) : KeepsInvariants s (hostReset s) :=
  ⟨fun _ _ _ =>
    ⟨memWf_resetAfterDraws _ _ _, fontIntact_resetAfterDraws _ _ _, pcBounded_resetAfterDraws _ _ _⟩, rfl⟩

/-- The ROM lies between the font and the end of memory. -/
theorem withRom_keepsInvariants (s : State) (bytes : List Byte) (h : bytes.length ≤ maxRom) :
    KeepsInvariants s (s.withRom bytes) := by
  refine ⟨fun hm hf hp => ⟨Memory.writeList_wf _ _ _ _ hm ?_, fun a => ?_, hp⟩, rfl⟩
  · exact Nat.add_le_add_left h programBase
  · rw [State.readByte_withRom_outside s bytes a.val (.inl (a.isLt.trans (by decide)))]
    exact hf a

theorem hostLoad_keepsInvariants (bytes : List Byte) (s : State) : KeepsInvariants s (hostLoad bytes s).1 := by
  by_cases hr : s.status = .ready
  · rcases Nat.lt_or_ge maxRom bytes.length with hlen | hlen
    · rw [hostLoad_of_too_large hr hlen]
      exact .refl s
    · rw [hostLoad_of_fits hr hlen]
      exact withRom_keepsInvariants s bytes hlen
  · rw [hostLoad_of_not_ready bytes s hr]
    exact .refl s

theorem step_keepsInvariants {s t : State} (h : step s = .next t) : KeepsInvariants s t :=
  ⟨fun hm hf hp => ⟨step_keeps_memory_canonical s t hm h, (step_keeps_the_font_region s t h).2 hf,
    step_keeps_pc_bounded s t hp h⟩, step_keeps_cfg h⟩

/-- The host's `step()` leaves the step's next state, or on a FAULTED engine the state as it is. -/
theorem hostStep_cases (s : State) : (hostStep s).1 = s ∨ step s = .next (hostStep s).1 := by
  cases hs : step s with
  | next t =>
    refine .inr (congrArg _ ?_)
    rw [hostStep, hs]
    cases ht : t.status <;> simp only [ht]
  | fault f => exact .inl (by rw [hostStep, hs])
  | refused r => exact .inl (by rw [hostStep, hs])

theorem hostCall_keepsInvariants (o : HostOp) (s : State) : KeepsInvariants s (hostCall o s).1 := by
  cases o with
  | reset => exact hostReset_keepsInvariants s
  | load bytes => exact hostLoad_keepsInvariants bytes s
  | step =>
    rcases hostStep_cases s with e | e
    · rw [hostCall, e]
      exact .refl s
    · exact step_keepsInvariants e
  | setKey index pressed =>
    rw [hostCall, hostSetKey]
    split <;> exact keepsInvariants_of_eq rfl rfl rfl rfl
  | tickTimers =>
    rw [hostCall, hostTickTimers]
    split <;> exact keepsInvariants_of_eq rfl rfl rfl rfl
  | clearFrameDirty => exact keepsInvariants_of_eq rfl rfl rfl rfl
  | frameDirty | framebuffer | delayTimer | soundTimer | status => exact .refl s

theorem hostRun_keepsInvariants (os : List HostOp) (s : State) : KeepsInvariants s (hostRun os s) := by
  induction os generalizing s with
  | nil => exact .refl s
  | cons o os ih => exact (hostCall_keepsInvariants o s).trans (ih _)

/-- Settles O19, by induction on the operations: each keeps the invariants and the parameters. -/
theorem host_schedule_keeps_the_invariants : Obligations.Host_schedule_keeps_the_invariants := by
  intro os s hm hf hp
  obtain ⟨hkeep, hcfg⟩ := hostRun_keepsInvariants os s
  obtain ⟨hm', hf', hp'⟩ := hkeep hm hf hp
  exact ⟨hm', hf', hp', hcfg⟩

/-! ### The parked engine (R125) -/

/-- The step of a parked engine: the jump puts pc back, and only the end of the step is left. -/
theorem step_of_parkedAt {s : State} {a : BitVec 12} (hl : s.live) (h : s.parkedAt a) :
    step s = .next (endStep s) := by
  obtain ⟨hpc, _, hf⟩ := h
  have hd : decode (packNnn 0x1#4 a) = .ok (.jp a) := decode_encode (.jp a) rfl
  have hjump : exec (.jp a) s.advancePc = .next s := by
    rw [setsPc_jp a s.advancePc, ← hpc]
    rfl
  rw [step_exec s _ _ hl hf hd, hjump, completeStep]

/-- What `n` steps leave in `t` of an engine `s` parked at `a`. -/
def ParkedAfter (a : BitVec 12) (n : Nat) (s t : State) : Prop :=
  t = { s with dt := t.dt, st := t.st, status := .running } ∧ t.parkedAt a ∧
  (s.cfg.timerMode = .perStep → t.dt.toNat = s.dt.toNat - n ∧ t.st.toNat = s.st.toNat - n) ∧
  (s.cfg.timerMode = .hostTick → t.dt = s.dt ∧ t.st = s.st)

/-- The end of a step writes the timers and the status, none of which a parked engine's place depends on. -/
theorem parkedAfter_endStep {s : State} {a : BitVec 12} (hl : s.live) (h : s.parkedAt a) :
    ParkedAfter a 1 s (endStep s) := by
  rw [endStep_live s hl]
  refine ⟨rfl, h, fun hm => ?_, fun hm => ?_⟩
  · simp only [hm, if_true]
    exact ⟨tickDown_toNat s.dt, tickDown_toNat s.st⟩
  · simp [hm]

theorem ParkedAfter.trans {a : BitVec 12} {m n : Nat} {s t u : State} (h : ParkedAfter a m s t)
    (h' : ParkedAfter a n t u) : ParkedAfter a (m + n) s u := by
  obtain ⟨ht, _, hper, hhost⟩ := h
  obtain ⟨hu, hpark, hper', hhost'⟩ := h'
  have hcfg : t.cfg = s.cfg := by rw [ht]
  rw [hcfg] at hper' hhost'
  refine ⟨by rw [hu, ht], hpark, fun hm => ?_, fun hm => ?_⟩
  · obtain ⟨hdt, hst⟩ := hper hm
    obtain ⟨hdt', hst'⟩ := hper' hm
    omega
  · obtain ⟨hdt, hst⟩ := hhost hm
    obtain ⟨hdt', hst'⟩ := hhost' hm
    exact ⟨hdt'.trans hdt, hst'.trans hst⟩

theorem core_run_succ {s t : State} (h : step s = .next t) (n : Nat) :
    Sys2Proof.core.run (n + 1) s = Sys2Proof.core.run n t := by
  have h' : Sys2Proof.core.step s = .next t := h
  simp only [Host.Core.run, h']

theorem core_run_of_parkedAt (a : BitVec 12) (n : Nat) (s : State) (hl : s.live) (h : s.parkedAt a) :
    ∃ t, Sys2Proof.core.run (n + 1) s = .next t ∧ ParkedAfter a (n + 1) s t := by
  induction n generalizing s with
  | zero => exact ⟨endStep s, core_run_succ (step_of_parkedAt hl h) 0, parkedAfter_endStep hl h⟩
  | succ n ih =>
    have hfirst := parkedAfter_endStep hl h
    have ⟨_, hpark, _⟩ := hfirst
    obtain ⟨t, ht, hrest⟩ := ih (endStep s) (congrArg Status.isFaulted (endStep_status_of_live s hl)) hpark
    refine ⟨t, (core_run_succ (step_of_parkedAt hl h) _).trans ht, ?_⟩
    rw [Nat.add_comm (n + 1) 1]
    exact hfirst.trans hrest

/-- Settles O54, by induction on the number of steps: each is the end of a step on the same parked engine. -/
theorem parked_engine_stays_parked : Obligations.Parked_engine_stays_parked :=
  fun a s n => core_run_of_parkedAt a n s

end Sys2Proof.Machine
end

section
/-! PROOFS. Canonical memory (20_memory.md §1): the list is what it reads as (R23, R25). -/

namespace Sys2Proof.Machine

/-- A canonical memory lists exactly the cells that read as something an unlisted address does not. -/
theorem Memory.mem_iff_read (font : Fontset) (m : Memory) (h : Memory.wf font m) (c : Host.Cell) :
    c ∈ m ↔ Memory.read font m c.1 = c.2 ∧ c.2 ≠ Memory.unlisted font c.1 := by
  obtain ⟨hsorted, hcells⟩ := h
  induction m with
  | nil =>
    simp only [Memory.read, List.not_mem_nil, false_iff]
    rintro ⟨he, hne⟩
    exact hne he.symm
  | cons d m ih =>
    obtain ⟨hd, hrest⟩ := List.pairwise_cons.1 hsorted
    have ih' := ih hrest fun c hc => hcells c (List.mem_cons_of_mem d hc)
    rw [List.mem_cons, Memory.read]
    by_cases ha : c.1 = d.1
    · have hnot : c ∉ m := fun hc => (Nat.ne_of_lt (hd c hc)) ha.symm
      rw [if_pos ha]
      constructor
      · rintro (rfl | hc)
        · exact ⟨rfl, (hcells c List.mem_cons_self).2⟩
        · exact absurd hc hnot
      · rintro ⟨he, _⟩
        exact .inl (Prod.ext ha he.symm)
    · rw [if_neg ha, ← ih']
      exact or_iff_right fun e => ha (congrArg Prod.fst e)

/-- Settles O23: equal reads list equal cells, and rising lists of the same cells are equal. -/
theorem canonical_memories_reading_alike_are_equal : Obligations.Canonical_memories_reading_alike_are_equal := by
  intro font m m' h h' hread
  have hmem : ∀ c, c ∈ m ↔ c ∈ m' := fun c => by
    rw [Memory.mem_iff_read font m h, Memory.mem_iff_read font m' h', hread]
  have : Std.Irrefl fun c d : Host.Cell => c.1 < d.1 := ⟨fun c => Nat.lt_irrefl c.1⟩
  have : Std.Antisymm fun c d : Host.Cell => c.1 < d.1 := ⟨fun c d hcd hdc => absurd hdc (Nat.lt_asymm hcd)⟩
  exact h.1.eq_of_mem_iff h'.1 hmem

end Sys2Proof.Machine
end

section
/-! PROOFS. Runs of two instructions and the remaining single ones (40_control_flow.md to 43_display.md): CALL then
RET, Fx55 then Fx65, Fx55 then the fetch, DRW twice, the two flag orders, and RND (R58, R60, R66, R78, R83 to R86). -/

namespace Sys2Proof.Machine

/-- Settles O28: the RET pops the entry the CALL pushed. -/
theorem call_then_ret_resumes_after_the_call : Obligations.Call_then_ret_resumes_after_the_call := by
  intro nnn s p h
  have hpop : (s.stack.set s.sp.val s.pc)[s.sp.val] = s.pc := Vector.getElem_set_self _
  refine ⟨_, { s with stack := s.stack.set s.sp.val s.pc }, exec_call_ok nnn s h, ?_, rfl, rfl, rfl, fun k => ?_⟩
  · rw [exec_ret_ok _ ⟨s.sp.val, h⟩ rfl]
    simp only [hpop]
    rfl
  · simp only [Vector.getElem_set, eq_comm]

/-! ### The flag orders (R66) -/

/-- The two writes commute when x is not 0xF and the result under SEQUENTIAL, which is computed after the VF write,
is the one computed on entry under FLAG_LAST. -/
theorem flag_orders_agree {i : Instr} {x : Reg} {flag : Byte} {result result' : State → Byte} {seq last : State}
    (hx : x ≠ vf) (hv : seq.v = last.v)
    (hseq : seq.cfg.flagOrder = .sequential) (hlast : last.cfg.flagOrder = .flagLast)
    (h : exec i seq = .next (writeWithFlag x flag result seq))
    (h' : exec i last = .next (writeWithFlag x flag result' last))
    (hr : result (seq.setV vf flag) = result' last) :
    ∃ t u, exec i seq = .next t ∧ exec i last = .next u ∧ t.v = u.v := by
  refine ⟨_, _, h, h', ?_⟩
  rw [writeWithFlag_of_sequential hseq, writeWithFlag_of_flagLast hlast, hr]
  simp only [State.setV_v, hv]
  exact Vector.set_comm _ _ fun e => hx (Fin.ext e.symm)

/-- Settles O35: the sum reads neither write, a shift reads V[x], and a difference V[x] and V[y]. -/
theorem flag_orders_agree_away_from_VF : Obligations.Flag_orders_agree_away_from_VF := by
  intro x y s hx seq last i hi
  have hseqx : ∀ flag, (seq.setV vf flag).getV x = last.getV x := fun flag => State.getV_setV_ne seq vf x flag hx
  rcases List.mem_append.1 hi with hi | hi
  · simp only [List.mem_cons, List.not_mem_nil, or_false] at hi
    rcases hi with rfl | rfl | rfl
    · exact flag_orders_agree hx rfl rfl rfl rfl rfl rfl
    · exact flag_orders_agree hx rfl rfl rfl rfl rfl (congrArg (fun b : Byte => b >>> (1 : Nat)) (hseqx _))
    · exact flag_orders_agree hx rfl rfl rfl rfl rfl (congrArg (fun b : Byte => b <<< (1 : Nat)) (hseqx _))
  · by_cases hy : y = vf
    · simp [hy] at hi
    · have hseqy : ∀ flag, (seq.setV vf flag).getV y = last.getV y := fun flag => State.getV_setV_ne seq vf y flag hy
      simp only [if_neg hy, List.mem_cons, List.not_mem_nil, or_false] at hi
      rcases hi with rfl | rfl
      · exact flag_orders_agree hx rfl rfl rfl rfl rfl (congrArg₂ (· - ·) (hseqx _) (hseqy _))
      · exact flag_orders_agree hx rfl rfl rfl rfl rfl (congrArg₂ (· - ·) (hseqy _) (hseqx _))

/-! ### RND (R78) -/

theorem decode_rnd (op : Word) (h : fieldG op = 0xC) : decode op = .ok (.rnd (fieldX op) (fieldKk op)) := by
  simp [decode, h]

/-- Settles O36: one register write of the draw under the mask, and the counter. -/
theorem rnd_masks_the_draw : Obligations.Rnd_masks_the_draw := by
  refine ⟨encodes_of_fieldG 0xC (by decide) decode_rnd, fun x kk s => ?_⟩
  have hx := s.getV_setV_same x (Config.randomDraw s.randomDraws &&& kk)
  refine ⟨_, rfl, rfl, hx, fun r hr => State.getV_setV_ne s x r _ hr, fun k hk => ?_, fun h0 => ?_, fun hff => ?_⟩
  · have hk' : (Config.randomDraw s.randomDraws &&& kk).getLsbD k = true := hx ▸ hk
    rw [BitVec.getLsbD_and, Bool.and_eq_true] at hk'
    exact hk'.2
  · exact hx.trans (by rw [h0]; exact BitVec.and_zero)
  · exact hx.trans (by rw [hff]; exact BitVec.and_allOnes)

/-! ### Block transfers (R83, R84) -/

/-- Settles O41: the block load reads the bytes the block store left. -/
theorem store_then_load_round_trips_registers : Obligations.Store_then_load_round_trips_registers := by
  intro x s v p hlo hhi
  obtain ⟨t, ht, hframe, hread, _⟩ := (register_block_is_stored.2 x s).1 hlo hhi
  have hi : t.i = s.i := by rw [hframe]
  have haddr : ∀ k, State.effAddr { t with v := v, pc := p } k = s.effAddr k := fun k => by
    simp only [State.effAddr, hi]
  obtain ⟨u, hu, hframe', hload, hkeep⟩ :=
    (register_block_is_loaded.2 x { t with v := v, pc := p }).1 (by rwa [haddr])
  refine ⟨t, u, ht, hu, fun k hk => ?_, hkeep, by rw [hframe']; exact hi⟩
  rw [hload k hk, haddr]
  exact hread k hk

/-- Settles O42: a store leaves pc, and the two bytes there read as the registers stored. -/
theorem fetch_sees_the_store_of_the_step_before : Obligations.Fetch_sees_the_store_of_the_step_before := by
  intro x k l s hlo hhi hl hlx hpc
  obtain ⟨t, ht, hframe, hread, _⟩ := (register_block_is_stored.2 x s).1 hlo hhi
  have htpc : t.pc.toNat = s.effAddr k.val := by rw [hframe]; exact hpc
  have hlx' : l.val ≤ x.val := hlx
  have hkx : k ≤ x := Fin.le_def.2 (by omega)
  have hhigh : t.readByte t.pc.toNat = s.getV k := by rw [htpc, hread k hkx]
  have hlow : t.readByte (t.pc.toNat + 1) = s.getV l := by
    rw [htpc, ← hread l hlx, hl]
    rfl
  have hle : t.pc.toNat ≤ 4094 := by
    have ek := s.effAddr_eq_add k.val
    have ex := s.effAddr_eq_add x.val
    omega
  exact ⟨t, ht, by rw [fetch_ok t hle, hhigh, hlow]; rfl⟩

/-! ### DRW twice (R86) -/

/-- What a sprite covers depends on I, memory and the two coordinates alone. -/
theorem State.spriteCovers_congr {s t : State} {x y : Reg} (hi : t.i = s.i) (hmem : t.mem = s.mem)
    (hcfg : t.cfg = s.cfg) (hx : t.getV x = s.getV x) (hy : t.getV y = s.getV y) (n : Nat) (row : Fin 32)
    (col : Fin 64) : t.spriteCovers x y n row col ↔ s.spriteCovers x y n row col := by
  simp only [State.spriteCovers, State.spriteSet, State.readByte, State.effAddr, hi, hmem, hcfg, hx, hy]

/-- A pixel flipped by both draws, or by neither, is as before both. -/
theorem pixel_eq_of_flipped_alike {a b c : Bool} {p : Prop} (h : b ≠ a ↔ p) (h' : c ≠ b ↔ p) : c = a := by
  by_cases hp : p
  · exact (Bool.eq_not_of_ne (h'.2 hp)).trans (Bool.eq_not_of_ne (h.2 hp).symm).symm
  · exact (not_not.1 (mt h'.1 hp)).trans (not_not.1 (mt h.1 hp))

/-- Settles O45: both draws flip the same pixels, so the second turns off exactly what the first lit. -/
theorem drw_twice_restores_the_framebuffer : Obligations.Drw_twice_restores_the_framebuffer := by
  intro x y n s p hwf h hx hy
  obtain ⟨t, ht, hframe, hflip, _, _, hregs⟩ := (drw_xors_the_sprite_and_reports_collision.2 x y n s hwf).1 h
  have hi : t.i = s.i := by rw [hframe]
  have hcovers : ∀ row col, State.spriteCovers { t with pc := p } x y n row col ↔ s.spriteCovers x y n row col :=
    State.spriteCovers_congr hi (by rw [hframe]) (by rw [hframe]) (hregs x hx) (hregs y hy) n
  have h' : n = 0 ∨ State.effAddr { t with pc := p } n ≤ 4096 := by
    rw [State.effAddr, hi]
    exact h
  obtain ⟨u, hu, _, hflip', _, hvf, _⟩ :=
    (drw_xors_the_sprite_and_reports_collision.2 x y n { t with pc := p } hwf).1 h'
  refine ⟨t, u, ht, hu, Framebuffer.ext_pixel _ _ fun row col => ?_, hvf.trans (exists₂_congr fun row col => ?_)⟩
  · exact pixel_eq_of_flipped_alike (hflip row col) ((hflip' row col).trans (hcovers row col))
  · rw [hcovers, ← hflip]
    refine and_congr_left fun hlit => ?_
    rw [show t.fb.pixel row col = true from hlit]
    exact ne_comm.trans Bool.eq_false_iff.symm

end Sys2Proof.Machine
end
